-- ==== Sys2Proof/Word.lean ====
section
/-! DEFINITION. Words, bytes and the names of the three engine kinds (00_scope.md R2, R6, R7). -/

namespace Sys2Proof

/-- A byte of a key, an IV, a payload, a response or a keystream (00_scope.md R10). -/
abbrev Byte := BitVec 8

/-- A 32-bit unsigned word; `+`, `^^^`, `&&&`, `|||`, `<<<`, `>>>` are the operators of R7 and R8. -/
abbrev Word := BitVec 32

/-- The three engine kinds of R2; there is no other. -/
inductive Engine where
  | hc128
  | hc256
  | rabbit
deriving DecidableEq, Repr

end Sys2Proof
end

