-- ==== Sys2Proof/Config.lean ====
section
/-! DEFINITION. What an implementation of the block fixes, and the values the spec leaves open. Every `opaque`
constant here has no body: no proof can learn its value, so a claim that is proved holds for every value. -/

namespace Sys2Proof

/-- The number of contexts per engine kind beyond the first. Its range is the range R6 gives NCTX
(DESIGN CHOICE of form, log 1: an open parameter of the spec is a constant without a body). -/
opaque Config.extraContexts : Fin 16

/-- `NCTX`, the OPEN parameter of 00_scope.md R6 and 92_eei_decisions.md D5: an integer with 1 ≤ NCTX ≤ 16. -/
def Config.nctx : Nat := Config.extraContexts.val + 1

/-- Where and when a free value is taken: the context `CTX[engine][ctx]`, and how many times its fields have been
left unspecified before. Different contexts, and different times, take unrelated values (log 5). -/
structure FreeKey where
  engine : Engine
  ctx    : Nat
  epoch  : Nat
deriving DecidableEq, Repr

/-- Table P after RELEASE or reset: unspecified (40_datapath.md R60, 70_reset_and_hazards.md R124; log 3). -/
opaque Config.freeP : (k : Nat) → FreeKey → Vector Word (2 ^ k)

/-- Table Q after RELEASE or reset: unspecified (R60, R124; log 3). -/
opaque Config.freeQ : (k : Nat) → FreeKey → Vector Word (2 ^ k)

/-- The step counter I after RELEASE or reset: unspecified (R60, R124; log 3). -/
opaque Config.freeI : FreeKey → BitVec 64

/-- The Rabbit state vector X after RELEASE or reset: unspecified (R60, R124; log 3). -/
opaque Config.freeX : FreeKey → Vector Word 8

/-- The Rabbit counter vector C after RELEASE or reset: unspecified (R60, R124; log 3). -/
opaque Config.freeC : FreeKey → Vector Word 8

/-- The Rabbit carry bit after RELEASE or reset: unspecified (R60, R124; log 3). -/
opaque Config.freeCarry : FreeKey → Bool

/-- KSB after RELEASE or reset (R60, R124; log 3), and after INIT, where R57 leaves it unspecified (log 4). -/
opaque Config.freeKsb : (B : Nat) → FreeKey → Vector Byte B

/-- KSN after RELEASE or reset: unspecified within its width (R60, R124; log 3). -/
opaque Config.freeKsn : (B : Nat) → FreeKey → Fin (B + 1)

end Sys2Proof
end

