-- ==== Sys2Proof/Syntax.lean ====
section
/-! DEFINITION. The commands: one constructor per row of spec/opcode_table.json (30_encoding.md R46). -/

namespace Sys2Proof

/-- The nine legal commands. Context indexes and byte counts are naturals, as R44 takes them (no field is signed,
scaled or shifted); `WellFormed` gives their ranges. The key, IV and input bytes are payload, not operands (R44). -/
inductive Instr where
  | hc128Init     (ctx klen ivlen : Nat)
  | hc128Xor      (ctx len : Nat)
  | hc128Release  (ctx : Nat)
  | hc256Init     (ctx klen ivlen : Nat)
  | hc256Xor      (ctx len : Nat)
  | hc256Release  (ctx : Nat)
  | rabbitInit    (ctx klen ivlen : Nat)
  | rabbitXor     (ctx len : Nat)
  | rabbitRelease (ctx : Nat)
deriving DecidableEq, Repr

/-- The engine kind a command names through ENG (R43). -/
def Instr.engine : Instr → Engine
  | .hc128Init _ _ _ | .hc128Xor _ _ | .hc128Release _ => .hc128
  | .hc256Init _ _ _ | .hc256Xor _ _ | .hc256Release _ => .hc256
  | .rabbitInit _ _ _ | .rabbitXor _ _ | .rabbitRelease _ => .rabbit

/-- The context index a command names through CTX (R43). -/
def Instr.ctx : Instr → Nat
  | .hc128Init n _ _ | .hc128Xor n _ | .hc128Release n => n
  | .hc256Init n _ _ | .hc256Xor n _ | .hc256Release n => n
  | .rabbitInit n _ _ | .rabbitXor n _ | .rabbitRelease n => n

/-- The payload bytes a command carries (R45, R46): KLEN + IVLEN for INIT, LEN for XOR, none for RELEASE. -/
def Instr.payloadLength : Instr → Nat
  | .hc128Init _ k v | .hc256Init _ k v | .rabbitInit _ k v => k + v
  | .hc128Xor _ l | .hc256Xor _ l | .rabbitXor _ l => l
  | .hc128Release _ | .hc256Release _ | .rabbitRelease _ => 0

/-- The mnemonic of R46, as spec/opcode_table.json spells it. -/
def Instr.mnemonic : Instr → String
  | .hc128Init _ _ _ => "HC128.INIT"
  | .hc128Xor _ _ => "HC128.XOR"
  | .hc128Release _ => "HC128.RELEASE"
  | .hc256Init _ _ _ => "HC256.INIT"
  | .hc256Xor _ _ => "HC256.XOR"
  | .hc256Release _ => "HC256.RELEASE"
  | .rabbitInit _ _ _ => "RABBIT.INIT"
  | .rabbitXor _ _ => "RABBIT.XOR"
  | .rabbitRelease _ => "RABBIT.RELEASE"

/-- INIT of engine `e` (OP = 0). -/
def Instr.init : Engine → Nat → Nat → Nat → Instr
  | .hc128, n, k, v => .hc128Init n k v
  | .hc256, n, k, v => .hc256Init n k v
  | .rabbit, n, k, v => .rabbitInit n k v

/-- XOR of engine `e` (OP = 1). -/
def Instr.xor : Engine → Nat → Nat → Instr
  | .hc128, n, l => .hc128Xor n l
  | .hc256, n, l => .hc256Xor n l
  | .rabbit, n, l => .rabbitXor n l

/-- RELEASE of engine `e` (OP = 2). -/
def Instr.release : Engine → Nat → Instr
  | .hc128, n => .hc128Release n
  | .hc256, n => .hc256Release n
  | .rabbit, n => .rabbitRelease n

end Sys2Proof
end

