-- ==== Sys2Proof/WellFormed.lean ====
section
/-! DEFINITION. Which terms of `Instr` are commands of a block with `nctx` contexts (30_encoding.md R43, R46, R47). -/

namespace Sys2Proof

/-- Every operand fits its field of R43, and the context exists: CTX < NCTX (R46). The legal lengths of INIT are not
part of this check: a word with other lengths decodes to INIT and completes with INVALID_LENGTH (R47). -/
def Instr.WellFormed (nctx : Nat) : Instr → Bool
  | .hc128Init n k v | .hc256Init n k v | .rabbitInit n k v =>
      decide (n < nctx) && decide (n < 16) && decide (k < 256) && decide (v < 256)
  | .hc128Xor n l | .hc256Xor n l | .rabbitXor n l =>
      decide (n < nctx) && decide (n < 16) && decide (l < 2 ^ 24)
  | .hc128Release n | .hc256Release n | .rabbitRelease n =>
      decide (n < nctx) && decide (n < 16)

end Sys2Proof
end

