-- ==== Sys2Proof/Decode.lean ====
section
/-! DEFINITION. The command decoder and, after it, the encoder (30_encoding.md). -/

namespace Sys2Proof

/-- `x[hi:lo]` of 00_scope.md R7: bits hi down to lo, zero-extended to a natural number. -/
def bits (x : Word) (hi lo : Nat) : Nat := x.toNat / 2 ^ lo % 2 ^ (hi - lo + 1)

/-- The parts of the command word (R43, R44). -/
def engField (w : Word) : Nat := bits w 1 0
def opField (w : Word) : Nat := bits w 3 2
def ctxField (w : Word) : Nat := bits w 7 4
def klenField (w : Word) : Nat := bits w 15 8
def ivlenField (w : Word) : Nat := bits w 23 16
def lenField (w : Word) : Nat := bits w 31 8

/-- `PLEN(CMD)`, a total function of the command word (R45). It depends on no other part of the word. -/
def plen (w : Word) : Nat :=
  if opField w = 0 then klenField w + ivlenField w
  else if opField w = 1 then lenField w
  else 0

/-- Why a word is reserved: the five properties of R47. All five complete with the one status ILLEGAL_COMMAND. -/
inductive Illegal where
  /-- ENG = 3. -/
  | engine
  /-- OP = 3. -/
  | operation
  /-- CTX ≥ NCTX. -/
  | context
  /-- OP = INIT with bits 31..24 not all 0. -/
  | initBits
  /-- OP = RELEASE with bits 31..8 not all 0. -/
  | releaseBits
deriving DecidableEq, Repr

/-- `n < m`, by recursion, so that index 0 is below `Config.nctx` by evaluation, whatever NCTX is. -/
def inRange : Nat → Nat → Bool
  | _, 0 => false
  | 0, _ + 1 => true
  | n + 1, m + 1 => inRange n m

/-- The engine kind of an ENG code; code 3 is reserved (R43). -/
def engineOfCode : Nat → Option Engine
  | 0 => some .hc128
  | 1 => some .hc256
  | 2 => some .rabbit
  | _ => none

/-- `Decode(w)` of R48 for a block with `nctx` contexts: a total function of the word and NCTX, with the tests in
the order of R48. A reserved word is rejected by name. -/
def decode (nctx : Nat) (w : Word) : Except Illegal Instr :=
  match engineOfCode (engField w) with
  | none => .error .engine
  | some e =>
    if opField w = 3 then .error .operation
    else if inRange (ctxField w) nctx = false then .error .context
    else if opField w = 0 then
      if bits w 31 24 ≠ 0 then .error .initBits
      else .ok (Instr.init e (ctxField w) (klenField w) (ivlenField w))
    else if opField w = 1 then .ok (Instr.xor e (ctxField w) (lenField w))
    else
      if bits w 31 8 ≠ 0 then .error .releaseBits
      else .ok (Instr.release e (ctxField w))

/-- The instruction the decoder reads from a row of spec/opcode_table.json: the block has one word of 32 bits (R42)
and the word is a value, not bytes (92_eei_decisions.md D20), so the table's bit numbers are the word's. -/
def decodeTableWord (nbits w : Nat) : Option Instr :=
  (decode Config.nctx (BitVec.ofNat 32 (w % 2 ^ nbits))).toOption

/-- The ENG code of an engine kind (R43). -/
def engineCode : Engine → BitVec 2
  | .hc128 => 0#2
  | .hc256 => 1#2
  | .rabbit => 2#2

/-- The INIT layout of R43, bit 31 on the left: 0, IVLEN, KLEN, CTX, OP = 00, ENG. -/
def initWord (e : Engine) (ctx klen ivlen : Nat) : Word :=
  0#8 ++ BitVec.ofNat 8 ivlen ++ BitVec.ofNat 8 klen ++ BitVec.ofNat 4 ctx ++ 0#2 ++ engineCode e

/-- The XOR layout of R43: LEN, CTX, OP = 01, ENG. -/
def xorWord (e : Engine) (ctx len : Nat) : Word :=
  BitVec.ofNat 24 len ++ BitVec.ofNat 4 ctx ++ 1#2 ++ engineCode e

/-- The RELEASE layout of R43: 0, CTX, OP = 10, ENG. -/
def releaseWord (e : Engine) (ctx : Nat) : Word :=
  0#24 ++ BitVec.ofNat 4 ctx ++ 2#2 ++ engineCode e

/-- The command word of a well-formed command (R43, R46). -/
def encode : Instr → Word
  | .hc128Init n k v => initWord .hc128 n k v
  | .hc128Xor n l => xorWord .hc128 n l
  | .hc128Release n => releaseWord .hc128 n
  | .hc256Init n k v => initWord .hc256 n k v
  | .hc256Xor n l => xorWord .hc256 n l
  | .hc256Release n => releaseWord .hc256 n
  | .rabbitInit n k v => initWord .rabbit n k v
  | .rabbitXor n l => xorWord .rabbit n l
  | .rabbitRelease n => releaseWord .rabbit n

/-- A row of the opcode map of R46: a word matches it when `word &&& mask = value`. -/
structure OpcodeRow where
  mnemonic : String
  mask     : Word
  value    : Word
deriving DecidableEq, Repr

/-- The opcode map, written from R46's table (its mask and match columns), independently of `decode`. -/
def opcodeMap : List OpcodeRow :=
  [ ⟨"HC128.INIT",     0xFF00000F#32, 0x00000000#32⟩,
    ⟨"HC128.XOR",      0x0000000F#32, 0x00000004#32⟩,
    ⟨"HC128.RELEASE",  0xFFFFFF0F#32, 0x00000008#32⟩,
    ⟨"HC256.INIT",     0xFF00000F#32, 0x00000001#32⟩,
    ⟨"HC256.XOR",      0x0000000F#32, 0x00000005#32⟩,
    ⟨"HC256.RELEASE",  0xFFFFFF0F#32, 0x00000009#32⟩,
    ⟨"RABBIT.INIT",    0xFF00000F#32, 0x00000002#32⟩,
    ⟨"RABBIT.XOR",     0x0000000F#32, 0x00000006#32⟩,
    ⟨"RABBIT.RELEASE", 0xFFFFFF0F#32, 0x0000000A#32⟩ ]

/-- A word matches a row of the opcode map (R46). -/
def OpcodeRow.Matches (r : OpcodeRow) (w : Word) : Bool := (w &&& r.mask) == r.value

end Sys2Proof
end

