-- ==== Sys2Proof/Machine/State.lean ====
section
/-! DEFINITION. The state of the block (10_state.md), its reset value, and the ways a step can fail to answer. -/

namespace Sys2Proof.Machine

/-- A transaction on the command port: the command word and the payload bytes the host sent (10_state.md R20). -/
structure Transaction where
  cmd     : Word
  payload : List Byte
deriving DecidableEq, Repr

/-- What the host can do to the block: issue a transaction, or assert reset at any time (70_reset_and_hazards.md
R124). `reset (some t)` is a reset asserted while `t` is in progress: `t` is abandoned (log 8), or refused
where it is not admitted (log 9). -/
inductive Request where
  | command (t : Transaction)
  | reset (inProgress : Option Transaction)
deriving DecidableEq, Repr

/-- The status of a response (60_exceptions.md R110); `Status.code` gives its 8-bit code. -/
inductive Status where
  | ok
  | invalidLength
  | noContext
  | illegalCommand
deriving DecidableEq, Repr

/-- A response: RSP.STATUS and RSP.DATA (10_state.md R20, 40_datapath.md R55). -/
structure Response where
  status : Status
  data   : List Byte
deriving DecidableEq, Repr

/-- A permutation table of `2 ^ k` words: k = 9 for HC-128, k = 10 for HC-256 (00_scope.md R6). -/
abbrev Table (k : Nat) := Vector Word (2 ^ k)

/-- The cipher state of an HC context: P, Q and the step counter I (10_state.md R14 for k = 9, R15 for k = 10). -/
structure HcCore (k : Nat) where
  p : Table k
  q : Table k
  i : BitVec 64
deriving DecidableEq, Repr

/-- The cipher state of a Rabbit context: X, C and CARRY (10_state.md R16). -/
structure RabbitCore where
  x     : Vector Word 8
  c     : Vector Word 8
  carry : Bool
deriving DecidableEq, Repr

/-- A context (10_state.md R12, R13, R17): VALID, the engine's cipher state, the last keystream block KSB of `B`
bytes, and KSN, the number of its bytes not yet consumed. `epoch` is the model's own field (log 5): it counts how
often the fields of this context were left unspecified, and keys the free values they then take. -/
structure Context (κ : Type) (B : Nat) where
  valid : Bool
  core  : κ
  ksb   : Vector Byte B
  ksn   : Fin (B + 1)
  epoch : Nat
deriving DecidableEq, Repr

/-- The contexts with one index n: `CTX[HC128][n]`, `CTX[HC256][n]` and `CTX[RABBIT][n]` (10_state.md R12). -/
structure Slot where
  hc128  : Context (HcCore 9) 4
  hc256  : Context (HcCore 10) 4
  rabbit : Context RabbitCore 16
deriving DecidableEq, Repr

/-- The state of the block. `slots` has one entry per context index, so its length is NCTX, the same for the three
engine kinds (00_scope.md R6, log 1). `requests` is what the host has issued and the block has not yet answered,
oldest first: its head is the transaction on the port (R20, 20_memory.md R36). `responses` is what the run has
observed, oldest first (70_reset_and_hazards.md R132); no rule reads it (log 6). -/
structure State where
  slots     : List Slot
  requests  : List Request
  responses : List Response
deriving DecidableEq, Repr

/-- NCTX of this block (00_scope.md R6). -/
def State.nctx (s : State) : Nat := s.slots.length

/-- The block never stops with a fault: it has no traps (60_exceptions.md R116), no arithmetic fault (R113) and no
out-of-range index (20_memory.md R28), and an error is a status in a response (R111). The type has no constructor, so
that this is visible in the types; nobody raises a fault, and there is nothing safe or unsafe about it. -/
inductive Fault where
deriving DecidableEq, Repr

/-- Why a step has no meaning. -/
inductive Refusal where
  /-- An instruction whose meaning is not written yet; only `exec` may answer it. Safe: the model stops. No arm of
  `exec` answers it now. -/
  | notModelled (mnemonic : String)
  /-- Raised by `step` and by every meaning: the payload does not have exactly PLEN(CMD) bytes, or there is no
  transaction on the port. 40_datapath.md R52 and R53 refuse such a transaction, also one that a reset finds in
  progress. Safe: the model stops. -/
  | payloadLengthMismatch
deriving DecidableEq, Repr

/-- The cipher state of an HC context at power-on: R124 leaves it unspecified; zeros are a DESIGN CHOICE (log 2). -/
def HcCore.reset (k : Nat) : HcCore k := ⟨Vector.replicate (2 ^ k) 0#32, Vector.replicate (2 ^ k) 0#32, 0#64⟩

/-- The cipher state of a Rabbit context at power-on: unspecified by R124; zeros are a DESIGN CHOICE (log 2). -/
def RabbitCore.reset : RabbitCore := ⟨Vector.replicate 8 0#32, Vector.replicate 8 0#32, false⟩

/-- A context at power-on: VALID = 0 (R124); every other field is a DESIGN CHOICE (log 2). -/
def Context.reset {κ : Type} {B : Nat} (core : κ) : Context κ B := ⟨false, core, Vector.replicate B 0#8, 0, 0⟩

/-- The contexts of one index at power-on. -/
def Slot.reset : Slot := ⟨Context.reset (HcCore.reset 9), Context.reset (HcCore.reset 10), Context.reset RabbitCore.reset⟩

/-- A block with `nctx` contexts per engine kind right after power-on: every VALID is 0 and the port is idle (R124). -/
def State.resetWith (nctx : Nat) : State := ⟨List.replicate nctx Slot.reset, [], []⟩

/-- The block right after reset, for the implementation's NCTX. -/
def State.reset : State := State.resetWith Config.nctx

end Sys2Proof.Machine
end

