-- ==== Sys2Proof/Machine/Operands.lean ====
section
/-! DEFINITION. Rotations, byte order, table access, payload access and the legal lengths: every operand form. -/

namespace Sys2Proof.Machine

/-- `rotr(x, n)`, 0 < n < 32 (00_scope.md R8). -/
def rotr (x : Word) (n : Nat) : Word := (x >>> n) ||| (x <<< (32 - n))

/-- `rotl(x, n)`, 0 < n < 32 (00_scope.md R8). -/
def rotl (x : Word) (n : Nat) : Word := (x <<< n) ||| (x >>> (32 - n))

/-- Byte `o` of a byte sequence. The rules read inside the sequence only (20_memory.md R27); the default is for
totality. -/
def byteAt (s : List Byte) (o : Nat) : Byte := s.getD o 0#8

/-- `LE32(s, o)` (00_scope.md R10). -/
def le32 (s : List Byte) (o : Nat) : Word :=
  (byteAt s o).setWidth 32 ||| ((byteAt s (o + 1)).setWidth 32 <<< 8) ||| ((byteAt s (o + 2)).setWidth 32 <<< 16)
    ||| ((byteAt s (o + 3)).setWidth 32 <<< 24)

/-- `BYTES_LE(w)`: `w[7:0], w[15:8], w[23:16], w[31:24]` (00_scope.md R10). -/
def bytesLe (w : Word) : Vector Byte 4 :=
  #v[w.extractLsb' 0 8, w.extractLsb' 8 8, w.extractLsb' 16 8, w.extractLsb' 24 8]

/-- `T[j]` for an index already reduced modulo the table size. An index of type `BitVec k` is in range by
construction, and its subtraction is `⊟` of 00_scope.md R9 (20_memory.md R28: no table access is out of range). -/
def Table.read {k : Nat} (t : Table k) (j : BitVec k) : Word := t[j.toNat]'j.isLt

/-- `T[j] <- v` (00_scope.md R11). -/
def Table.write {k : Nat} (t : Table k) (j : BitVec k) (v : Word) : Table k := t.set j.toNat v j.isLt

/-- The payload of the transaction on the port, if one is there (10_state.md R20). -/
def State.payload? (s : State) : Option (List Byte) :=
  match s.requests with
  | .command t :: _ => some t.payload
  | _ => none

/-- `MemRead(addr, n)`: payload bytes addr .. addr + n − 1 (00_scope.md R11, 20_memory.md R27). -/
def memRead (payload : List Byte) (addr n : Nat) : List Byte := (payload.drop addr).take n

/-- The legal (KLEN, IVLEN) pairs (40_datapath.md R56). -/
def legalLengths : Engine → Nat → Nat → Bool
  | .hc128, k, v => k == 16 && v == 16
  | .hc256, k, v => k == 32 && v == 32
  | .rabbit, k, v => k == 16 && (v == 0 || v == 8)

end Sys2Proof.Machine
end

