-- ==== Sys2Proof/Machine/Flags.lean ====
section
/-! DEFINITION. The block has no condition flags (10_state.md R23). Its only carry computation is Rabbit's counter
carry (43_rabbit.md R99), and its only status is the code of a response (60_exceptions.md R110). -/

namespace Sys2Proof.Machine

/-- One word of the counter update: the exact sum of the word, the constant and the carry in 64 bits; the low 32 bits
are the new word and bit 32 is the carry out (43_rabbit.md R99). -/
def addCarry (c a : Word) (b : Bool) : Word × Bool :=
  let t : BitVec 64 := c.setWidth 64 + a.setWidth 64 + (BitVec.ofBool b).setWidth 64
  (t.extractLsb' 0 32, t.getLsbD 32)

/-- The 8-bit status codes of R110. -/
def Status.code : Status → BitVec 8
  | .ok => 0#8
  | .invalidLength => 1#8
  | .noContext => 2#8
  | .illegalCommand => 3#8

end Sys2Proof.Machine
end

