-- ==== Sys2Proof/Machine/Ops.lean ====
section
/-! DEFINITION. The operations every command is made of: the response and `raise`, the streaming XOR datapath with its
pending keystream, and the generic INIT, XOR and RELEASE (40_datapath.md). -/

namespace Sys2Proof.Machine

/-- What a meaning answers. -/
abbrev Answer := Host.Outcome State Fault Refusal

/-- The head request leaves the port: its transaction is over and none of it is retained (10_state.md R20). -/
def State.finish (s : State) : State := { s with requests := s.requests.tail }

/-- The one response of an admitted transaction (40_datapath.md R54, R55). -/
def State.respond (s : State) (status : Status) (data : List Byte) : State :=
  { s with requests := s.requests.tail, responses := s.responses ++ [⟨status, data⟩] }

/-- `raise <Status>`: the command ends with the status, no response data and no change to any context (00_scope.md
R11, 60_exceptions.md R111). The block has no other exception entry and no return from one (R116). -/
def raise (status : Status) (s : State) : Answer := .next (s.respond status [])

/-- `CTX[·][n] <- …`: the contexts of index n become those of `slot`. -/
def State.putSlot (s : State) (n : Nat) (slot : Slot) : State := { s with slots := s.slots.set n slot }

/-- What the generic rules of 40_datapath.md take from an engine file: `Setup_E`, `Refill_E` on the engine's cipher
state, the cipher state of a context the spec leaves unspecified, and which context of a slot is the engine's. -/
structure EngineOps (κ : Type) (B : Nat) where
  engine   : Engine
  setup    : List Byte → List Byte → κ
  refill   : κ → Vector Byte B × κ
  freeCore : FreeKey → κ
  get      : Slot → Context κ B
  put      : Context κ B → Slot → Slot

/-- The refill of R59: when no byte is pending, exactly one extraction step gives B fresh keystream bytes. It is
lazy: it happens when a byte is needed, never when the last one is consumed (90_conflicts.md C6). -/
def Context.refilled {κ : Type} {B : Nat} (refill : κ → Vector Byte B × κ) (c : Context κ B) : Context κ B :=
  if c.ksn.val = 0 then { c with core := (refill c.core).2, ksb := (refill c.core).1, ksn := Fin.last B } else c

/-- `KSB[B − KSN]`, the front byte of the pending keystream (10_state.md R17). It is read with 0 < KSN ≤ B only; the
default is for totality. -/
def Context.frontByte {κ : Type} {B : Nat} (c : Context κ B) : Byte := c.ksb[B - c.ksn.val]?.getD 0#8

/-- `KSN <- KSN − 1` (R59). -/
def Context.consume {κ : Type} {B : Nat} (c : Context κ B) : Context κ B :=
  { c with ksn := ⟨c.ksn.val - 1, by omega⟩ }

/-- The next keystream byte of a context, and the context after it is consumed (R59). -/
def Context.nextByte {κ : Type} {B : Nat} (refill : κ → Vector Byte B × κ) (c : Context κ B) : Byte × Context κ B :=
  ((c.refilled refill).frontByte, (c.refilled refill).consume)

/-- `XorDatapath` (R59): one byte at a time, in increasing order. The result is the response data and the context. -/
def Context.xorBytes {κ : Type} {B : Nat} (refill : κ → Vector Byte B × κ) :
    List Byte → Context κ B → List Byte × Context κ B
  | [], c => ([], c)
  | b :: bs, c =>
    let r := c.nextByte refill
    let rest := Context.xorBytes refill bs r.2
    ((b ^^^ r.1) :: rest.1, rest.2)

/-- The key under which context n of engine E takes its next free values (log 5). -/
def EngineOps.freeKey {κ : Type} {B : Nat} (E : EngineOps κ B) (n : Nat) (c : Context κ B) : FreeKey :=
  ⟨E.engine, n, c.epoch⟩

/-- A context constructed by INIT (40_datapath.md R57): every engine field from `Setup_E`, KSN = 0, VALID = 1. KSB is
left unspecified: a free value (log 4). -/
def EngineOps.constructed {κ : Type} {B : Nat} (E : EngineOps κ B) (n : Nat) (c : Context κ B) (key iv : List Byte) :
    Context κ B :=
  { valid := true, core := E.setup key iv, ksb := Config.freeKsb B (E.freeKey n c), ksn := 0, epoch := c.epoch + 1 }

/-- A context whose cipher is destroyed: VALID = 0, all other fields unspecified (R60, R124): free values (log 3). -/
def EngineOps.destroyed {κ : Type} {B : Nat} (E : EngineOps κ B) (n : Nat) (c : Context κ B) : Context κ B :=
  { valid := false, core := E.freeCore (E.freeKey n c), ksb := Config.freeKsb B (E.freeKey n c),
    ksn := Config.freeKsn B (E.freeKey n c), epoch := c.epoch + 1 }

/-- Every command works on the payload of the transaction on the port and the contexts of its index. A transaction
without exactly `len` payload bytes is refused (R52); a context index that does not exist makes the word reserved, so
the command ends with ILLEGAL_COMMAND (30_encoding.md R47; `decode` has rejected it before, log 10). -/
def onSlot (len n : Nat) (s : State) (body : List Byte → Slot → Answer) : Answer :=
  match s.payload? with
  | none => .refused .payloadLengthMismatch
  | some payload =>
    if payload.length = len then
      match s.slots[n]? with
      | none => raise .illegalCommand s
      | some slot => body payload slot
    else .refused .payloadLengthMismatch

/-- `InitGeneric` (R57): the length check comes before every context write. -/
def initGeneric {κ : Type} {B : Nat} (E : EngineOps κ B) (n klen ivlen : Nat) (s : State) : Answer :=
  onSlot (klen + ivlen) n s fun payload slot =>
    if legalLengths E.engine klen ivlen then
      let c := E.constructed n (E.get slot) (memRead payload 0 klen) (memRead payload klen ivlen)
      .next ((s.putSlot n (E.put c slot)).respond .ok [])
    else raise .invalidLength s

/-- `XorGeneric` (R58). -/
def xorGeneric {κ : Type} {B : Nat} (E : EngineOps κ B) (n len : Nat) (s : State) : Answer :=
  onSlot len n s fun payload slot =>
    if (E.get slot).valid then
      let r := (E.get slot).xorBytes E.refill (memRead payload 0 len)
      .next ((s.putSlot n (E.put r.2 slot)).respond .ok r.1)
    else raise .noContext s

/-- `ReleaseGeneric` (R60). -/
def releaseGeneric {κ : Type} {B : Nat} (E : EngineOps κ B) (n : Nat) (s : State) : Answer :=
  onSlot 0 n s fun _ slot =>
    if (E.get slot).valid then
      .next ((s.putSlot n (E.put (E.destroyed n (E.get slot)) slot)).respond .ok [])
    else raise .noContext s

end Sys2Proof.Machine
end

