-- ==== Sys2Proof/Machine/Hc128.lean ====
section
/-! DEFINITION. The HC-128 engine and its three commands (41_hc128.md), and f1, f2, which HC-256 shares. -/

namespace Sys2Proof.Machine

/-- `f1` (R66). -/
def f1 (x : Word) : Word := rotr x 7 ^^^ rotr x 18 ^^^ (x >>> 3)

/-- `f2` (R67). -/
def f2 (x : Word) : Word := rotr x 17 ^^^ rotr x 19 ^^^ (x >>> 10)

/-- `g1` with the published grouping, exclusive or first (R68, 90_conflicts.md C1). -/
def g1 (x y z : Word) : Word := (rotr x 10 ^^^ rotr z 23) + rotr y 8

/-- `g2` (R69). -/
def g2 (x y z : Word) : Word := (rotl x 10 ^^^ rotl z 23) + rotl y 8

/-- `h1` on table Q (R70), and `h2` on table P (R71): the sum of two words at byte-selected indexes. -/
def h128 (t : Table 9) (x : Word) : Word :=
  t.read (BitVec.ofNat 9 (bits x 7 0)) + t.read (BitVec.ofNat 9 (256 + bits x 23 16))

/-- `h1(x)` (R70). -/
def HcCore.h1 (ctx : HcCore 9) (x : Word) : Word := h128 ctx.q x

/-- `h2(x)` (R71). -/
def HcCore.h2 (ctx : HcCore 9) (x : Word) : Word := h128 ctx.p x

/-- The words W[0..15] of HC-128 from key and IV (R72). -/
def load128 (key iv : List Byte) : Array Word :=
  ((List.range 8).map fun i => le32 key (4 * i % 16)).toArray ++
    ((List.range 8).map fun i => le32 iv (4 * i % 16)).toArray

/-- One word of the expansion, at the plain index i = the number of words so far (R73; R88 for HC-256). -/
def expandWord (w : Array Word) : Word :=
  let i := w.size
  f2 (w.getD (i - 2) 0) + w.getD (i - 7) 0 + f1 (w.getD (i - 15) 0) + w.getD (i - 16) 0 + BitVec.ofNat 32 i

/-- `n` further words of the expansion (R73, R88). -/
def expand : Nat → Array Word → Array Word
  | 0, w => w
  | n + 1, w => expand n (w.push (expandWord w))

/-- The table of `2 ^ k` words `W[start ..]` (R74, R89). -/
def tableFrom (k : Nat) (w : Array Word) (start : Nat) : Table k := Vector.ofFn fun i => w.getD (start + i.val) 0

/-- The expansion buffer W[0..1279] of HC-128 (R72, R73): 16 words loaded, 1264 computed. -/
def expansion128 (key iv : List Byte) : Array Word := expand 1264 (load128 key iv)

/-- P and Q before the warm-up (R74). -/
def tables128 (key iv : List Byte) : HcCore 9 :=
  let w := expansion128 key iv
  ⟨tableFrom 9 w 256, tableFrom 9 w 768, 0⟩

/-- A P step of `Step128` (R77): the table after the update, and the output word. -/
def stepP128 (ctx : HcCore 9) : Word × HcCore 9 :=
  let j : BitVec 9 := ctx.i.setWidth 9
  let p := ctx.p.write j
    (ctx.p.read j + g1 (ctx.p.read (j - 3)) (ctx.p.read (j - 10)) (ctx.p.read (j - 511)))
  let s := ctx.h1 (p.read (j - 12)) ^^^ p.read j
  (s, { p := p, q := ctx.q, i := ctx.i + 1 })

/-- A Q step of `Step128` (R77). -/
def stepQ128 (ctx : HcCore 9) : Word × HcCore 9 :=
  let j : BitVec 9 := ctx.i.setWidth 9
  let q := ctx.q.write j
    (ctx.q.read j + g2 (ctx.q.read (j - 3)) (ctx.q.read (j - 10)) (ctx.q.read (j - 511)))
  let s := ctx.h2 (q.read (j - 12)) ^^^ q.read j
  (s, { p := ctx.p, q := q, i := ctx.i + 1 })

/-- `Step128` (R77): table P when bit 9 of I is 0, table Q otherwise; the position is I[8:0]; I counts on modulo 2^64. -/
def step128 (ctx : HcCore 9) : Word × HcCore 9 :=
  if ctx.i.getLsbD 9 = false then stepP128 ctx else stepQ128 ctx

/-- One warm-up step of R75: the step's output word is written back over the table word it updated. -/
def warmStep128 (ctx : HcCore 9) (k : Nat) : HcCore 9 :=
  let r := step128 ctx
  if k < 512 then { r.2 with p := r.2.p.write (BitVec.ofNat 9 k) r.1 }
  else { r.2 with q := r.2.q.write (BitVec.ofNat 9 (k - 512)) r.1 }

/-- `Warmup128` (R75): 1024 steps from I = 0. -/
def warmup128 (ctx : HcCore 9) : HcCore 9 := (List.range 1024).foldl warmStep128 { ctx with i := 0 }

/-- `Setup_128` (R76): load, expand, fill the tables, warm up, and I = 0. -/
def setup128 (key iv : List Byte) : HcCore 9 := { warmup128 (tables128 key iv) with i := 0 }

/-- `Refill_128` (R78): one step, its word serialised little-endian. -/
def refill128 (ctx : HcCore 9) : Vector Byte 4 × HcCore 9 := (bytesLe (step128 ctx).1, (step128 ctx).2)

/-- The HC-128 cipher state of a context the spec leaves unspecified (log 3). -/
def freeHc128 (key : FreeKey) : HcCore 9 := ⟨Config.freeP 9 key, Config.freeQ 9 key, Config.freeI key⟩

/-- What the generic commands take from this engine (R79, R80, R81). -/
def hc128Ops : EngineOps (HcCore 9) 4 where
  engine := .hc128
  setup := setup128
  refill := refill128
  freeCore := freeHc128
  get := Slot.hc128
  put := fun c slot => { slot with hc128 := c }

/-- HC128.INIT (R79). -/
def execHc128Init (ctx klen ivlen : Nat) (s : State) : Answer := initGeneric hc128Ops ctx klen ivlen s

/-- HC128.XOR (R80). -/
def execHc128Xor (ctx len : Nat) (s : State) : Answer := xorGeneric hc128Ops ctx len s

/-- HC128.RELEASE (R81). -/
def execHc128Release (ctx : Nat) (s : State) : Answer := releaseGeneric hc128Ops ctx s

end Sys2Proof.Machine
end

