-- ==== Sys2Proof/Machine/Hc256.lean ====
section
/-! DEFINITION. The HC-256 engine and its three commands (42_hc256.md). f1, f2 and the expansion are HC-128's (R82, R88). -/

namespace Sys2Proof.Machine

/-- The rotated part of `g1_256` and `g2_256` plus a lookup in the other table at `(x ⊕ y)[9:0]` (R83, R84). -/
def g256 (other : Table 10) (x y : Word) : Word :=
  (rotr x 10 ^^^ rotr y 23) + other.read (BitVec.ofNat 10 (bits (x ^^^ y) 9 0))

/-- `g1_256`, with a lookup in Q (R83). -/
def HcCore.g1 (ctx : HcCore 10) (x y : Word) : Word := g256 ctx.q x y

/-- `g2_256`, with a lookup in P (R84). -/
def HcCore.g2 (ctx : HcCore 10) (x y : Word) : Word := g256 ctx.p x y

/-- The sum of four words, one from each quarter of a table (R85, R86). -/
def h256 (t : Table 10) (x : Word) : Word :=
  t.read (BitVec.ofNat 10 (bits x 7 0)) + t.read (BitVec.ofNat 10 (256 + bits x 15 8))
    + t.read (BitVec.ofNat 10 (512 + bits x 23 16)) + t.read (BitVec.ofNat 10 (768 + bits x 31 24))

/-- `h1_256` on table Q (R85). -/
def HcCore.h1w (ctx : HcCore 10) (x : Word) : Word := h256 ctx.q x

/-- `h2_256` on table P (R86). -/
def HcCore.h2w (ctx : HcCore 10) (x : Word) : Word := h256 ctx.p x

/-- The words W[0..15] of HC-256 from key and IV (R87). -/
def load256 (key iv : List Byte) : Array Word :=
  ((List.range 8).map fun i => le32 key (4 * i)).toArray ++ ((List.range 8).map fun i => le32 iv (4 * i)).toArray

/-- The expansion buffer W[0..2559] of HC-256 (R87, R88): 16 words loaded, 2544 computed. -/
def expansion256 (key iv : List Byte) : Array Word := expand 2544 (load256 key iv)

/-- P and Q before the warm-up (R89). -/
def tables256 (key iv : List Byte) : HcCore 10 :=
  let w := expansion256 key iv
  ⟨tableFrom 10 w 512, tableFrom 10 w 1536, 0⟩

/-- A P step of `Step256` (R92). -/
def stepP256 (ctx : HcCore 10) : Word × HcCore 10 :=
  let j : BitVec 10 := ctx.i.setWidth 10
  let p := ctx.p.write j
    (ctx.p.read j + ctx.p.read (j - 10) + ctx.g1 (ctx.p.read (j - 3)) (ctx.p.read (j - 1023)))
  let s := ctx.h1w (p.read (j - 12)) ^^^ p.read j
  (s, { p := p, q := ctx.q, i := ctx.i + 1 })

/-- A Q step of `Step256` (R92). -/
def stepQ256 (ctx : HcCore 10) : Word × HcCore 10 :=
  let j : BitVec 10 := ctx.i.setWidth 10
  let q := ctx.q.write j
    (ctx.q.read j + ctx.q.read (j - 10) + ctx.g2 (ctx.q.read (j - 3)) (ctx.q.read (j - 1023)))
  let s := ctx.h2w (q.read (j - 12)) ^^^ q.read j
  (s, { p := ctx.p, q := q, i := ctx.i + 1 })

/-- `Step256` (R92): table P when bit 10 of I is 0, table Q otherwise; the position is I[9:0]. -/
def step256 (ctx : HcCore 10) : Word × HcCore 10 :=
  if ctx.i.getLsbD 10 = false then stepP256 ctx else stepQ256 ctx

/-- `Warmup256` (R90): 4096 steps from I = 0, every output discarded, then I = 0. -/
def warmup256 (ctx : HcCore 10) : HcCore 10 :=
  { (fun c => (step256 c).2)^[4096] { ctx with i := 0 } with i := 0 }

/-- `Setup_256` (R91). -/
def setup256 (key iv : List Byte) : HcCore 10 := warmup256 (tables256 key iv)

/-- `Refill_256` (R93). -/
def refill256 (ctx : HcCore 10) : Vector Byte 4 × HcCore 10 := (bytesLe (step256 ctx).1, (step256 ctx).2)

/-- The HC-256 cipher state of a context the spec leaves unspecified (log 3). -/
def freeHc256 (key : FreeKey) : HcCore 10 := ⟨Config.freeP 10 key, Config.freeQ 10 key, Config.freeI key⟩

/-- What the generic commands take from this engine (R94, R95, R96). -/
def hc256Ops : EngineOps (HcCore 10) 4 where
  engine := .hc256
  setup := setup256
  refill := refill256
  freeCore := freeHc256
  get := Slot.hc256
  put := fun c slot => { slot with hc256 := c }

/-- HC256.INIT (R94). -/
def execHc256Init (ctx klen ivlen : Nat) (s : State) : Answer := initGeneric hc256Ops ctx klen ivlen s

/-- HC256.XOR (R95). -/
def execHc256Xor (ctx len : Nat) (s : State) : Answer := xorGeneric hc256Ops ctx len s

/-- HC256.RELEASE (R96). -/
def execHc256Release (ctx : Nat) (s : State) : Answer := releaseGeneric hc256Ops ctx s

end Sys2Proof.Machine
end

