-- ==== Sys2Proof/Machine/Rabbit.lean ====
section
/-! DEFINITION. The Rabbit engine and its three commands (43_rabbit.md). -/

namespace Sys2Proof.Machine

/-- The counter constants A[0..7] (R99, 90_conflicts.md C3). -/
def rabbitA : Vector Word 8 :=
  #v[0x4D34D34D#32, 0xD34D34D3#32, 0x34D34D34#32, 0x4D34D34D#32,
     0xD34D34D3#32, 0x34D34D34#32, 0x4D34D34D#32, 0xD34D34D3#32]

/-- One counter word of `CtrUpdate` (R99): the word at i is replaced and the running carry goes on. -/
def ctrWord (acc : Vector Word 8 × Bool) (i : Fin 8) : Vector Word 8 × Bool :=
  let t := addCarry acc.1[i] rabbitA[i] acc.2
  (acc.1.set i t.1, t.2)

/-- `CtrUpdate` (R99): C[0] first, C[7] last; the last carry is kept in CARRY. -/
def ctrUpdate (ctx : RabbitCore) : RabbitCore :=
  let r := [0, 1, 2, 3, 4, 5, 6, 7].foldl ctrWord (ctx.c, ctx.carry)
  { x := ctx.x, c := r.1, carry := r.2 }

/-- `g(u, v)` (R100): the exact 64-bit square of the 32-bit sum, its halves combined. -/
def gRabbit (u v : Word) : Word :=
  let t : Word := u + v
  let sq : BitVec 64 := t.setWidth 64 * t.setWidth 64
  sq.extractLsb' 0 32 ^^^ sq.extractLsb' 32 32

/-- The eight equations of R101 (90_conflicts.md C4), from G to the new X. -/
def combineG (G : Vector Word 8) : Vector Word 8 :=
  #v[G[0] + rotl G[7] 16 + rotl G[6] 16,
     G[1] + rotl G[0] 8 + G[7],
     G[2] + rotl G[1] 16 + rotl G[0] 16,
     G[3] + rotl G[2] 8 + G[1],
     G[4] + rotl G[3] 16 + rotl G[2] 16,
     G[5] + rotl G[4] 8 + G[3],
     G[6] + rotl G[5] 16 + rotl G[4] 16,
     G[7] + rotl G[6] 8 + G[5]]

/-- `NextState` (R101): the counter update, then G from the old X and the new C, then all of X. -/
def nextState (ctx : RabbitCore) : RabbitCore :=
  let n := ctrUpdate ctx
  { n with x := combineG (Vector.zipWith gRabbit n.x n.c) }

/-- `(hi & 0xFFFF0000) | (lo & 0x0000FFFF)` (R98, R103). -/
def joinHalves (hi lo : Word) : Word := (hi &&& 0xFFFF0000#32) ||| (lo &&& 0x0000FFFF#32)

/-- The initial state of R98 from the four little-endian key words of R97. -/
def rabbitLoad (key : List Byte) : RabbitCore :=
  let k0 := le32 key 0
  let k1 := le32 key 4
  let k2 := le32 key 8
  let k3 := le32 key 12
  { x := #v[k0, (k3 <<< 16) ||| (k2 >>> 16), k1, (k0 <<< 16) ||| (k3 >>> 16),
            k2, (k1 <<< 16) ||| (k0 >>> 16), k3, (k2 <<< 16) ||| (k1 >>> 16)]
    c := #v[rotl k2 16, joinHalves k0 k1, rotl k3 16, joinHalves k1 k2,
            rotl k0 16, joinHalves k2 k3, rotl k1 16, joinHalves k3 k0]
    carry := false }

/-- The finalization of R102: `C[i] <- C[i] ⊕ X[(i + 4) mod 8]` (90_conflicts.md C2). -/
def finalizeKey (ctx : RabbitCore) : RabbitCore :=
  { ctx with c := Vector.ofFn fun i => ctx.c[i] ^^^ ctx.x[i + 4] }

/-- `KeySetup` (R102). -/
def keySetup (key : List Byte) : RabbitCore := finalizeKey (nextState^[4] (rabbitLoad key))

/-- The four IV words i0..i3 of R103. -/
def ivWords (iv : List Byte) : Vector Word 4 :=
  let v0 := le32 iv 0
  let v1 := le32 iv 4
  #v[v0, joinHalves v1 (v0 >>> 16), v1, (v1 <<< 16) ||| (v0 &&& 0x0000FFFF#32)]

/-- The IV words XORed into the counters (R103): C[m] and C[m + 4] take i_m. -/
def mixIv (ctx : RabbitCore) (w : Vector Word 4) : RabbitCore :=
  { ctx with c := #v[ctx.c[0] ^^^ w[0], ctx.c[1] ^^^ w[1], ctx.c[2] ^^^ w[2], ctx.c[3] ^^^ w[3],
                     ctx.c[4] ^^^ w[0], ctx.c[5] ^^^ w[1], ctx.c[6] ^^^ w[2], ctx.c[7] ^^^ w[3]] }

/-- `IvSetup` (R103); CARRY is the one key setup left. -/
def ivSetup (ctx : RabbitCore) (iv : List Byte) : RabbitCore := nextState^[4] (mixIv ctx (ivWords iv))

/-- `Setup_RB` (R104): IV setup only when an 8-byte IV is given. -/
def setupRabbit (key iv : List Byte) : RabbitCore :=
  if iv.length = 8 then ivSetup (keySetup key) iv else keySetup key

/-- `Extract` (R105): s0, s1, s2, s3. -/
def extractRabbit (ctx : RabbitCore) : Vector Word 4 :=
  #v[ctx.x[0] ^^^ (ctx.x[5] >>> 16) ^^^ (ctx.x[3] <<< 16),
     ctx.x[2] ^^^ (ctx.x[7] >>> 16) ^^^ (ctx.x[5] <<< 16),
     ctx.x[4] ^^^ (ctx.x[1] >>> 16) ^^^ (ctx.x[7] <<< 16),
     ctx.x[6] ^^^ (ctx.x[3] >>> 16) ^^^ (ctx.x[1] <<< 16)]

/-- `BYTES_LE(s0) ‖ BYTES_LE(s1) ‖ BYTES_LE(s2) ‖ BYTES_LE(s3)`: byte j is byte j mod 4 of word j / 4 (R106). -/
def serialise (s : Vector Word 4) : Vector Byte 16 := Vector.ofFn fun j => (bytesLe s[j.val / 4])[j.val % 4]

/-- `Refill_RB` (R106): one round, then extraction, the four words serialised little-endian, s0 first. -/
def refillRabbit (ctx : RabbitCore) : Vector Byte 16 × RabbitCore :=
  (serialise (extractRabbit (nextState ctx)), nextState ctx)

/-- The Rabbit cipher state of a context the spec leaves unspecified (log 3). -/
def freeRabbit (key : FreeKey) : RabbitCore := ⟨Config.freeX key, Config.freeC key, Config.freeCarry key⟩

/-- What the generic commands take from this engine (R107, R108, R109). -/
def rabbitOps : EngineOps RabbitCore 16 where
  engine := .rabbit
  setup := setupRabbit
  refill := refillRabbit
  freeCore := freeRabbit
  get := Slot.rabbit
  put := fun c slot => { slot with rabbit := c }

/-- RABBIT.INIT (R107). -/
def execRabbitInit (ctx klen ivlen : Nat) (s : State) : Answer := initGeneric rabbitOps ctx klen ivlen s

/-- RABBIT.XOR (R108). -/
def execRabbitXor (ctx len : Nat) (s : State) : Answer := xorGeneric rabbitOps ctx len s

/-- RABBIT.RELEASE (R109). -/
def execRabbitRelease (ctx : Nat) (s : State) : Answer := releaseGeneric rabbitOps ctx s

end Sys2Proof.Machine
end

