-- ==== Sys2Proof/Machine/Dispatch.lean ====
section
/-! DEFINITION. One arm per command of the opcode map (30_encoding.md R46, 40_datapath.md R54). -/

namespace Sys2Proof.Machine

def exec (i : Instr) (s : State) : Host.Outcome State Fault Refusal :=
  match i with
  | .hc128Init ctx klen ivlen => Sys2Proof.Machine.execHc128Init ctx klen ivlen s
  | .hc128Xor ctx len => Sys2Proof.Machine.execHc128Xor ctx len s
  | .hc128Release ctx => Sys2Proof.Machine.execHc128Release ctx s
  | .hc256Init ctx klen ivlen => Sys2Proof.Machine.execHc256Init ctx klen ivlen s
  | .hc256Xor ctx len => Sys2Proof.Machine.execHc256Xor ctx len s
  | .hc256Release ctx => Sys2Proof.Machine.execHc256Release ctx s
  | .rabbitInit ctx klen ivlen => Sys2Proof.Machine.execRabbitInit ctx klen ivlen s
  | .rabbitXor ctx len => Sys2Proof.Machine.execRabbitXor ctx len s
  | .rabbitRelease ctx => Sys2Proof.Machine.execRabbitRelease ctx s

end Sys2Proof.Machine
end

