-- ==== Sys2Proof/Machine/Execute.lean ====
section
/-! DEFINITION. One transaction from port to response (40_datapath.md R54), and reset (70_reset_and_hazards.md R124). -/

namespace Sys2Proof.Machine

/-- Admission: a transaction whose payload does not have exactly PLEN(CMD) bytes is refused, and there is no step for
it, whatever the rest of the answer would be (R52, R53). -/
def ifAdmitted (t : Transaction) (answer : Answer) : Answer :=
  if t.payload.length = plen t.cmd then answer else .refused .payloadLengthMismatch

/-- `Execute(CMD, PAYLOAD)` of R54: admission first (R52, R53), then decoding, then the command. A reserved word
completes with ILLEGAL_COMMAND, its payload consumed and discarded (30_encoding.md R47). -/
def execute (t : Transaction) (s : State) : Answer :=
  ifAdmitted t <|
    match decode s.nctx t.cmd with
    | .error _ => raise .illegalCommand s
    | .ok i => exec i s

/-- The three contexts of index n after reset: VALID = 0, every other field unspecified (R124; free values, log 3). -/
def Slot.destroyed (n : Nat) (slot : Slot) : Slot :=
  ⟨hc128Ops.destroyed n slot.hc128, hc256Ops.destroyed n slot.hc256, rabbitOps.destroyed n slot.rabbit⟩

/-- The effect of reset (R124): every context is invalid, and there is no response (log 8). -/
def hostReset (s : State) : State := { s with slots := s.slots.mapIdx Slot.destroyed }.finish

/-- Reset asserted by the host (R124), between commands or while a transaction is in progress. That transaction is
abandoned (log 8); but one that is not admitted is refused, so that no step is taken from it either (R53, log 9). -/
def executeReset (inProgress : Option Transaction) (s : State) : Answer :=
  match inProgress with
  | none => .next (hostReset s)
  | some t => ifAdmitted t (.next (hostReset s))

end Sys2Proof.Machine
end

