-- ==== Sys2Proof/Machine/Step.lean ====
section
/-! DEFINITION. One step: the block takes the oldest request of the host (00_scope.md R5, 20_memory.md R36). -/

namespace Sys2Proof.Machine

/-- One command per step. With no request the block is idle and holds every context (60_exceptions.md R123, log 7). -/
def step (s : State) : Host.Outcome State Fault Refusal :=
  match s.requests with
  | [] => .next s
  | .reset inProgress :: _ => executeReset inProgress s
  | .command t :: _ => execute t s

/-- The block fetches no instructions (10_state.md R22): the next command is the oldest request. Here that is the
word `w`, with a payload of PLEN(w) zero bytes, so that the very next step runs it (log 11). -/
def State.withFetchWord (s : State) (nbits w : Nat) : State :=
  let cmd : Word := BitVec.ofNat 32 (w % 2 ^ nbits)
  { s with requests := .command ⟨cmd, List.replicate (plen cmd) 0#8⟩ :: s.requests }

end Sys2Proof.Machine
end

