-- ==== Sys2Proof/Machine/Commands.lean ====
section
/-! DEFINITION. The host's side of the port: the transactions of the assembler syntax (30_encoding.md R50) and the two
pseudo-commands (R51). The block never sees a pseudo-command; it sees the commands it expands into. -/

namespace Sys2Proof.Machine

/-- `<e>.init c<n>, key=…, iv=…`: KLEN and IVLEN are the byte-string lengths, and the payload is key ‖ iv (R50). -/
def initCommand (e : Engine) (n : Nat) (key iv : List Byte) : Transaction :=
  ⟨encode (Instr.init e n key.length iv.length), key ++ iv⟩

/-- `<e>.xor c<n>, …`: LEN is the length of the byte string, which is the payload (R50). -/
def xorCommand (e : Engine) (n : Nat) (input : List Byte) : Transaction := ⟨encode (Instr.xor e n input.length), input⟩

/-- `<e>.release c<n>` (R50). -/
def releaseCommand (e : Engine) (n : Nat) : Transaction := ⟨encode (Instr.release e n), []⟩

/-- The most bytes one XOR command transforms: 2^24 − 1 (00_scope.md R6, R51). -/
def maxXorLength : Nat := 2 ^ 24 - 1

/-- The pieces `<e>.xorn` cuts its bytes into, each the next at most 2^24 − 1 bytes (R51); `fuel` bounds their number. -/
def xornPieces : Nat → List Byte → List (List Byte)
  | 0, input => [input]
  | fuel + 1, input =>
    if input.length ≤ maxXorLength then [input]
    else input.take maxXorLength :: xornPieces fuel (input.drop maxXorLength)

/-- The expansion of `<e>.xorn c<n>, <bytes>` (R51); no bytes give one empty XOR. -/
def xornCommands (e : Engine) (n : Nat) (input : List Byte) : List Transaction :=
  (xornPieces input.length input).map (xorCommand e n)

/-- The expansion of `<e>.ks c<n>, L`: `xorn` over L zero bytes (R51). -/
def ksCommands (e : Engine) (n len : Nat) : List Transaction := xornCommands e n (List.replicate len 0#8)

end Sys2Proof.Machine
end

