-- ==== Sys2Proof/Safety.lean ====
section
/-! DEFINITION. The terms the claims are stated in: admission, the keystream of a cipher state, what is hidden from the
host, and the invariant of every step. Nothing here is used by `step`. -/

namespace Sys2Proof.Machine

/-- The payload has exactly PLEN(CMD) bytes (40_datapath.md R52). -/
abbrev Transaction.Admitted (t : Transaction) : Prop := t.payload.length = plen t.cmd

/-- A step is safe when it answers a next state: the only stop of the block is a refused transaction (R53). -/
def SafeStep (s : State) : Prop := ∃ u, step s = .next u

/-- The cipher state after `r` refills (40_datapath.md R61: s_{r+1} is left by the r-th refill). -/
def afterRefills {κ : Type} {B : Nat} (refill : κ → Vector Byte B × κ) (r : Nat) (core : κ) : κ :=
  (fun c => (refill c).2)^[r] core

/-- Byte `n` of `Refill(s_1) ‖ Refill(s_2) ‖ …` from the cipher state `core` = s_1 (R61). -/
def keystream {κ : Type} {B : Nat} (refill : κ → Vector Byte B × κ) (core : κ) (n : Nat) : Byte :=
  (refill (afterRefills refill (n / B) core)).1[n % B]?.getD 0#8

/-- `KS_E(key, iv)` (R61). -/
def KS : Engine → List Byte → List Byte → Nat → Byte
  | .hc128, key, iv => keystream refill128 (setup128 key iv)
  | .hc256, key, iv => keystream refill256 (setup256 key iv)
  | .rabbit, key, iv => keystream refillRabbit (setupRabbit key iv)

/-- The pending keystream `KSB[B − KSN .. B − 1]` (10_state.md R17). -/
def Context.pending {κ : Type} {B : Nat} (c : Context κ B) : List Byte := c.ksb.toList.drop (B - c.ksn.val)

/-- The k-th keystream byte the context will deliver from now on: pending bytes first, then fresh blocks (R17, R59). -/
def Context.upcoming {κ : Type} {B : Nat} (refill : κ → Vector Byte B × κ) (c : Context κ B) (k : Nat) : Byte :=
  if k < c.ksn.val then c.ksb[B - c.ksn.val + k]?.getD 0#8 else keystream refill c.core (k - c.ksn.val)

/-- The number of refills an XOR of `len` bytes runs with `ksn` bytes pending: max(0, ⌈(LEN − KSN) / B⌉)
(70_reset_and_hazards.md R131). -/
def refillsFor (B ksn len : Nat) : Nat := (len - ksn + (B - 1)) / B

/-- The context `d` is what `c` becomes when `len` keystream bytes are consumed: the work of R131, KSN, and KSB the last
block produced (10_state.md R14, R16); VALID stays. -/
def Context.AdvancedBy {κ : Type} {B : Nat} (refill : κ → Vector Byte B × κ) (len : Nat) (c d : Context κ B) : Prop :=
  let r := refillsFor B c.ksn.val len
  d.valid = c.valid ∧ d.core = afterRefills refill r c.core ∧ d.ksn.val + len = c.ksn.val + r * B ∧
    (r = 0 → d.ksb = c.ksb) ∧ (0 < r → d.ksb = (refill (afterRefills refill (r - 1) c.core)).1)

/-- VALID of the context of engine `e` in a slot (10_state.md R13). -/
def Slot.validOf (slot : Slot) : Engine → Bool
  | .hc128 => slot.hc128.valid
  | .hc256 => slot.hc256.valid
  | .rabbit => slot.rabbit.valid

/-- The upcoming keystream of the context of engine `e` in a slot. -/
def Slot.upcoming (slot : Slot) : Engine → Nat → Byte
  | .hc128 => slot.hc128.upcoming refill128
  | .hc256 => slot.hc256.upcoming refill256
  | .rabbit => slot.rabbit.upcoming refillRabbit

/-- Two slots agree on the context of engine `e`. -/
def Slot.AgreeOn (e : Engine) (a b : Slot) : Prop :=
  match e with
  | .hc128 => a.hc128 = b.hc128
  | .hc256 => a.hc256 = b.hc256
  | .rabbit => a.rabbit = b.rabbit

/-- Two states agree on `CTX[e][n]`: either neither has slot n, or both have it with the same context of engine `e`. -/
def State.AgreeOn (e : Engine) (n : Nat) (s t : State) : Prop := Option.Rel (Slot.AgreeOn e) s.slots[n]? t.slots[n]?

/-- Every context of every engine kind is invalid (70_reset_and_hazards.md R124). -/
def State.AllInvalid (s : State) : Prop := ∀ slot ∈ s.slots, ∀ e, slot.validOf e = false

/-- The (KLEN, IVLEN) pairs of R56's table, as that table lists them. -/
def LegalPair : Engine → Nat → Nat → Prop
  | .hc128, k, v => (k, v) = (16, 16)
  | .hc256, k, v => (k, v) = (32, 32)
  | .rabbit, k, v => (k, v) = (16, 0) ∨ (k, v) = (16, 8)

/-- The one status of an admitted transaction by the priority of 60_exceptions.md R112. -/
inductive HasStatus (s : State) (w : Word) : Status → Prop where
  /-- 1. ILLEGAL_COMMAND, if the word is reserved. -/
  | reserved (why : Illegal) : decode s.nctx w = .error why → HasStatus s w .illegalCommand
  /-- 2. For INIT: INVALID_LENGTH, if the lengths are not legal. -/
  | lengths (e : Engine) (n k v : Nat) : decode s.nctx w = .ok (Instr.init e n k v) → ¬ LegalPair e k v →
      HasStatus s w .invalidLength
  /-- 3. For XOR: NO_CONTEXT, if VALID = 0. -/
  | xorInvalid (e : Engine) (n len : Nat) (slot : Slot) : decode s.nctx w = .ok (Instr.xor e n len) →
      s.slots[n]? = some slot → slot.validOf e = false → HasStatus s w .noContext
  /-- 3. For RELEASE: NO_CONTEXT, if VALID = 0. -/
  | releaseInvalid (e : Engine) (n : Nat) (slot : Slot) : decode s.nctx w = .ok (Instr.release e n) →
      s.slots[n]? = some slot → slot.validOf e = false → HasStatus s w .noContext
  /-- 4. Otherwise OK: INIT with legal lengths. -/
  | initOk (e : Engine) (n k v : Nat) : decode s.nctx w = .ok (Instr.init e n k v) → LegalPair e k v → HasStatus s w .ok
  /-- 4. Otherwise OK: XOR on a valid context. -/
  | xorOk (e : Engine) (n len : Nat) (slot : Slot) : decode s.nctx w = .ok (Instr.xor e n len) →
      s.slots[n]? = some slot → slot.validOf e = true → HasStatus s w .ok
  /-- 4. Otherwise OK: RELEASE on a valid context. -/
  | releaseOk (e : Engine) (n : Nat) (slot : Slot) : decode s.nctx w = .ok (Instr.release e n) →
      s.slots[n]? = some slot → slot.validOf e = true → HasStatus s w .ok

/-- Two contexts the host cannot tell apart: the same VALID, and, while it is 1, the same cipher state and the same
pending keystream. While VALID = 0 no field is ever read (10_state.md R13), and consumed bytes of KSB are not pending. -/
def Context.Alike {κ : Type} {B : Nat} (c d : Context κ B) : Prop :=
  c.valid = d.valid ∧ (c.valid = true → c.core = d.core ∧ c.ksn = d.ksn ∧ c.pending = d.pending)

/-- Two slots the host cannot tell apart. -/
def Slot.Alike (a b : Slot) : Prop := a.hc128.Alike b.hc128 ∧ a.hc256.Alike b.hc256 ∧ a.rabbit.Alike b.rabbit

/-- Two states that differ at most in fields the host can never observe (10_state.md R25). -/
def State.Alike (s t : State) : Prop :=
  List.Forall₂ Slot.Alike s.slots t.slots ∧ s.requests = t.requests ∧ s.responses = t.responses

/-- Between commands KSN is at most B − 1 in a context that holds a cipher (10_state.md R17). -/
def Context.Settled {κ : Type} {B : Nat} (c : Context κ B) : Prop := c.valid = true → c.ksn.val < B

/-- The invariant of every step: NCTX is legal (00_scope.md R6), the pending keystream of every cipher is shorter than
a block (10_state.md R17), and no response with a status other than OK has data (40_datapath.md R55). -/
def State.Inv (s : State) : Prop :=
  1 ≤ s.nctx ∧ s.nctx ≤ 16 ∧
    (∀ slot ∈ s.slots, slot.hc128.Settled ∧ slot.hc256.Settled ∧ slot.rabbit.Settled) ∧
    (∀ r ∈ s.responses, r.status ≠ .ok → r.data = [])

/-- `k` requests answered in order, from the state `s` with exactly these commands on the port (20_memory.md R36). -/
def State.runCommands (s : State) (ts : List Transaction) : Host.Outcome State Fault Refusal :=
  Host.Core.run Sys2Proof.core ts.length { s with requests := ts.map Request.command }

end Sys2Proof.Machine
end

