-- ==== Sys2Proof/Certificates/Slice0/Obligations.lean ====
section
/-! DEFINITION. The statements for the provers. Each names the rules of spec/ it formalises. -/

open Sys2Proof Sys2Proof.Machine

/-! ### The encoding -/

/-- 30_encoding.md R43, R46, R48: for every NCTX and every well-formed command, decoding its word gives it back. -/
def Obligations.DecodeOfEncodeIsTheCommand : Prop :=
  ∀ (nctx : Nat) (i : Instr), i.WellFormed nctx = true → decode nctx (encode i) = .ok i

/-- 30_encoding.md R43, R46: a word that decodes is the word of its command, and the command is well formed: each word
has one meaning, and no bit of a legal word is dropped. -/
def Obligations.EncodeOfDecodeIsTheWord : Prop :=
  ∀ (nctx : Nat) (w : Word) (i : Instr), decode nctx w = .ok i → i.WellFormed nctx = true ∧ encode i = w

/-- 30_encoding.md R46: a word is legal exactly when it matches a row of the opcode map and CTX < NCTX, and then it is
the command of that row; the rows do not overlap, and bits 3..0 differ between any two rows. -/
def Obligations.LegalWordsMatchExactlyOneRow : Prop :=
  (∀ (nctx : Nat) (w : Word),
    ((∃ i, decode nctx w = .ok i) ↔ (∃ r ∈ opcodeMap, r.Matches w = true) ∧ bits w 7 4 < nctx) ∧
    (∀ i, decode nctx w = .ok i → ∀ r ∈ opcodeMap, r.Matches w = true → r.mnemonic = i.mnemonic)) ∧
  (∀ w : Word, ∀ r ∈ opcodeMap, ∀ r' ∈ opcodeMap, r.Matches w = true → r'.Matches w = true → r = r') ∧
  (∀ r ∈ opcodeMap, ∀ r' ∈ opcodeMap, r ≠ r' → r.value &&& 0xF#32 ≠ r'.value &&& 0xF#32)

/-- 30_encoding.md R47: the reserved words are those with any of the five properties R47 lists. -/
def Obligations.ReservedWordsHaveOneOfFiveProperties : Prop :=
  ∀ (nctx : Nat) (w : Word),
    (∃ why, decode nctx w = .error why) ↔
      (bits w 1 0 = 3 ∨ bits w 3 2 = 3 ∨ (bits w 3 2 = 0 ∧ bits w 31 24 ≠ 0) ∨ (bits w 3 2 = 2 ∧ bits w 31 8 ≠ 0) ∨
        nctx ≤ bits w 7 4)

/-- 30_encoding.md R45: PLEN by operation, and its independence of ENG, CTX and the reserved bits: two words with the
same OP and the same length fields of that OP have the same payload length. With R46: a legal word carries exactly the
payload of its command. -/
def Obligations.PayloadLengthIsAFunctionOfOpAndLengths : Prop :=
  (∀ w : Word, bits w 3 2 = 0 → plen w = bits w 15 8 + bits w 23 16) ∧
  (∀ w : Word, bits w 3 2 = 1 → plen w = bits w 31 8) ∧
  (∀ w : Word, bits w 3 2 ≠ 0 → bits w 3 2 ≠ 1 → plen w = 0) ∧
  (∀ w v : Word, w &&& 0x00FFFF0C#32 = v &&& 0x00FFFF0C#32 → bits w 3 2 ≠ 1 → plen w = plen v) ∧
  (∀ w v : Word, w &&& 0xFFFFFF0C#32 = v &&& 0xFFFFFF0C#32 → plen w = plen v) ∧
  (∀ (nctx : Nat) (w : Word) (i : Instr), decode nctx w = .ok i → plen w = i.payloadLength)

/-- Sanity: words written out in the spec (30_encoding.md R50, the examples of R79–R81, R94–R96, R107–R109). -/
def Obligations.ExampleWordsDecode : Prop :=
  decode 1 0x00101000#32 = .ok (.hc128Init 0 16 16) ∧ decode 1 0x00000504#32 = .ok (.hc128Xor 0 5) ∧
  decode 1 0x00000008#32 = .ok (.hc128Release 0) ∧ decode 1 0x00202001#32 = .ok (.hc256Init 0 32 32) ∧
  decode 1 0x00000405#32 = .ok (.hc256Xor 0 4) ∧ decode 1 0x00000009#32 = .ok (.hc256Release 0) ∧
  decode 1 0x00081002#32 = .ok (.rabbitInit 0 16 8) ∧ decode 1 0x00000406#32 = .ok (.rabbitXor 0 4) ∧
  decode 1 0x0000000A#32 = .ok (.rabbitRelease 0) ∧ decode 1 0x00101010#32 = .error .context ∧
  decode 2 0x00101010#32 = .ok (.hc128Init 1 16 16)

/-! ### One step -/

/-- 40_datapath.md R54: an admitted transaction whose word decodes to a command is executed as that command, on the
very state that holds the transaction at the head of its requests. -/
def Obligations.StepRunsTheDecodedCommand : Prop :=
  ∀ (s : State) (t : Transaction) (rest : List Request) (i : Instr),
    s.requests = .command t :: rest → t.Admitted → decode s.nctx t.cmd = .ok i → step s = exec i s

/-- 40_datapath.md R52: a transaction whose payload does not have exactly PLEN(CMD) bytes is refused, whatever its word. -/
def Obligations.WrongPayloadLengthIsRefused : Prop :=
  ∀ (s : State) (t : Transaction) (rest : List Request),
    s.requests = .command t :: rest → t.payload.length ≠ plen t.cmd → step s = .refused .payloadLengthMismatch

/-- 30_encoding.md R47: a word is reserved when it matches no row of the opcode map or has CTX ≥ NCTX; those are the words
with one of the five properties of R47. A reserved word completes with ILLEGAL_COMMAND: no context changes, its payload
is consumed, and there is no response data. KLEN and IVLEN that are not legal lengths do not make a word reserved: it is
INIT, and completes with INVALID_LENGTH. -/
def Obligations.ReservedWordCompletesIllegal : Prop :=
  (∀ (nctx : Nat) (w : Word),
    (∀ r ∈ opcodeMap, r.Matches w = false) ∨ nctx ≤ bits w 7 4 ↔
      (bits w 1 0 = 3 ∨ bits w 3 2 = 3 ∨ (bits w 3 2 = 0 ∧ bits w 31 24 ≠ 0) ∨ (bits w 3 2 = 2 ∧ bits w 31 8 ≠ 0) ∨
        nctx ≤ bits w 7 4)) ∧
  (∀ (s : State) (t : Transaction) (rest : List Request),
    s.requests = .command t :: rest → t.Admitted →
    ((∀ r ∈ opcodeMap, r.Matches t.cmd = false) ∨ s.nctx ≤ bits t.cmd 7 4) →
    step s = .next { slots := s.slots, requests := rest, responses := s.responses ++ [⟨.illegalCommand, []⟩] }) ∧
  (∀ (s : State) (t : Transaction) (rest : List Request) (e : Engine) (n k v : Nat),
    s.requests = .command t :: rest → t.Admitted → decode s.nctx t.cmd = .ok (Instr.init e n k v) → ¬ LegalPair e k v →
    step s = .next { slots := s.slots, requests := rest, responses := s.responses ++ [⟨.invalidLength, []⟩] })

/-- 40_datapath.md R54: each admitted transaction produces exactly one response, and leaves the port. -/
def Obligations.AdmittedTransactionAnswersOnce : Prop :=
  ∀ (s : State) (t : Transaction) (rest : List Request),
    s.requests = .command t :: rest → t.Admitted →
    ∃ u r, step s = .next u ∧ u.responses = s.responses ++ [r] ∧ u.requests = rest ∧ u.nctx = s.nctx

/-- 60_exceptions.md R111: a command that ends with a status other than OK changes no field of any context and has no
response data; nothing else changes but the port. -/
def Obligations.ErrorStatusHasNoOtherEffect : Prop :=
  ∀ (s u : State) (t : Transaction) (rest : List Request) (r : Response),
    s.requests = .command t :: rest → step s = .next u → u.responses = s.responses ++ [r] → r.status ≠ .ok →
    r.data = [] ∧ u = { slots := s.slots, requests := rest, responses := s.responses ++ [r] }

/-- 60_exceptions.md R112: the status of an admitted transaction is the one its priority order prescribes (`HasStatus`
lists the four cases of R112 with the lengths of R56), and that status is unique. -/
def Obligations.StatusFollowsThePriority : Prop :=
  (∀ (s : State) (t : Transaction) (rest : List Request) (st : Status),
    s.requests = .command t :: rest → t.Admitted → HasStatus s t.cmd st →
    ∃ u data, step s = .next u ∧ u.responses = s.responses ++ [⟨st, data⟩]) ∧
  (∀ (s : State) (w : Word), ∃! st, HasStatus s w st)

/-- 40_datapath.md R55: response data has LEN bytes when the command is an XOR with status OK, and is empty otherwise; a
status other than OK leaves every context exactly as it was. -/
def Obligations.OnlyAnXorReturnsData : Prop :=
  ∀ (s u : State) (t : Transaction) (rest : List Request) (r : Response),
    s.requests = .command t :: rest → step s = .next u → u.responses = s.responses ++ [r] →
    (∀ e n len, decode s.nctx t.cmd = .ok (Instr.xor e n len) → r.status = .ok → r.data.length = len) ∧
    ((¬ ∃ e n len, decode s.nctx t.cmd = .ok (Instr.xor e n len)) ∨ r.status ≠ .ok → r.data = []) ∧
    (r.status ≠ .ok → u.slots = s.slots)

/-- 60_exceptions.md R110: the codes of the four statuses; codes 4 to 255 belong to none. -/
def Obligations.StatusCodesAreZeroToThree : Prop :=
  Status.ok.code = 0#8 ∧ Status.invalidLength.code = 1#8 ∧ Status.noContext.code = 2#8 ∧
  Status.illegalCommand.code = 3#8 ∧ ∀ st : Status, st.code.toNat < 4

/-- THE MODEL'S CHOICE (log 7), from 60_exceptions.md R123 "Between commands it is idle and holds every context": with
no request a step changes nothing. -/
def Obligations.IdleBlockHoldsEverything : Prop := ∀ s : State, s.requests = [] → step s = .next s

/-! ### Reset -/

/-- 70_reset_and_hazards.md R124: reset makes every context invalid, and a command in progress is abandoned with no
response. 40_datapath.md R53: where the transaction in progress is not admitted, the step is refused, reset or not. NCTX is
the implementation's and stays. THE MODEL'S CHOICE (log 8): a reset is a request, and the requests behind it, as commands
the host issues later, stay (`u.requests = rest`). -/
def Obligations.ResetInvalidatesEveryContext : Prop :=
  ∀ (s : State) (inProgress : Option Transaction) (rest : List Request),
    s.requests = .reset inProgress :: rest →
    ((∀ t ∈ inProgress, t.Admitted) →
      ∃ u, step s = .next u ∧ u.AllInvalid ∧ u.nctx = s.nctx ∧ u.requests = rest ∧ u.responses = s.responses) ∧
    (∀ t ∈ inProgress, ¬ t.Admitted → step s = .refused .payloadLengthMismatch)

/-- 70_reset_and_hazards.md R124 and 00_scope.md R6: after reset every VALID is 0, the port is idle, and
1 ≤ NCTX ≤ 16. -/
def Obligations.ResetStateIsIdleAndInvalid : Prop :=
  State.reset.AllInvalid ∧ State.reset.requests = [] ∧ State.reset.responses = [] ∧
  1 ≤ State.reset.nctx ∧ State.reset.nctx ≤ 16

/-- 70_reset_and_hazards.md R125: after reset, XOR and RELEASE report NO_CONTEXT, on every context of every engine.
The command is a request behind the reset, which is THE MODEL'S CHOICE (log 8). A transaction that the reset finds in
progress is an admitted one: of any other no step is taken (40_datapath.md R53, `ResetInvalidatesEveryContext`). -/
def Obligations.AfterResetXorAndReleaseReportNoContext : Prop :=
  ∀ (s : State) (inProgress : Option Transaction) (t : Transaction) (rest : List Request) (e : Engine) (n : Nat),
    s.requests = .reset inProgress :: .command t :: rest → (∀ t' ∈ inProgress, t'.Admitted) → t.Admitted →
    ((∃ len, decode s.nctx t.cmd = .ok (Instr.xor e n len)) ∨ decode s.nctx t.cmd = .ok (Instr.release e n)) →
    ∃ u, Host.Core.run core 2 s = .next u ∧ u.responses = s.responses ++ [⟨.noContext, []⟩] ∧ u.requests = rest

/-- The invariant holds after reset (10_state.md R17, 00_scope.md R6, 40_datapath.md R55). -/
def Obligations.ResetStateMeetsTheInvariant : Prop := State.reset.Inv

/-- Every step keeps the invariant: NCTX legal (R6), KSN at most B − 1 in every context that holds a cipher (R17), no
data in a response with a status other than OK (R55). -/
def Obligations.EveryStepKeepsTheInvariant : Prop := ∀ s u : State, s.Inv → step s = .next u → u.Inv

/-! ### INIT, XOR and RELEASE -/

/-- 40_datapath.md R57 with 41_hc128.md R79: with a 16-byte key and a 16-byte IV, HC128.INIT completes with OK; the
context is valid, holds `Setup_128(key, iv)` and has no pending keystream; no other context changes. KSB is left
unspecified by R57, and `epoch` is the model's own field: the statement says nothing of them. -/
def Obligations.Hc128InitConstructsTheCipher : Prop :=
  ∀ (s : State) (n : Nat) (key iv : List Byte) (slot : Slot),
    s.payload? = some (key ++ iv) → key.length = 16 → iv.length = 16 → s.slots[n]? = some slot →
    ∃ c, exec (.hc128Init n 16 16) s =
        .next { slots := s.slots.set n { slot with hc128 := c }, requests := s.requests.tail,
                responses := s.responses ++ [⟨.ok, []⟩] } ∧
      c.valid = true ∧ c.core = setup128 key iv ∧ c.ksn = 0

/-- 40_datapath.md R57 with 42_hc256.md R94: as for HC-128, with 32 bytes each and `Setup_256`. -/
def Obligations.Hc256InitConstructsTheCipher : Prop :=
  ∀ (s : State) (n : Nat) (key iv : List Byte) (slot : Slot),
    s.payload? = some (key ++ iv) → key.length = 32 → iv.length = 32 → s.slots[n]? = some slot →
    ∃ c, exec (.hc256Init n 32 32) s =
        .next { slots := s.slots.set n { slot with hc256 := c }, requests := s.requests.tail,
                responses := s.responses ++ [⟨.ok, []⟩] } ∧
      c.valid = true ∧ c.core = setup256 key iv ∧ c.ksn = 0

/-- 40_datapath.md R57 with 43_rabbit.md R107 and R104: with a 16-byte key, and an IV of 8 bytes or none, RABBIT.INIT
completes with OK; IV setup runs only when the IV is there. -/
def Obligations.RabbitInitConstructsTheCipher : Prop :=
  ∀ (s : State) (n : Nat) (key iv : List Byte) (slot : Slot),
    s.payload? = some (key ++ iv) → key.length = 16 → iv.length = 0 ∨ iv.length = 8 → s.slots[n]? = some slot →
    ∃ c, exec (.rabbitInit n 16 iv.length) s =
        .next { slots := s.slots.set n { slot with rabbit := c }, requests := s.requests.tail,
                responses := s.responses ++ [⟨.ok, []⟩] } ∧
      c.valid = true ∧ c.ksn = 0 ∧
      (iv.length = 0 → c.core = keySetup key) ∧ (iv.length = 8 → c.core = ivSetup (keySetup key) iv)

/-- 40_datapath.md R56 and R57: every pair of lengths other than the table's gives INVALID_LENGTH, and the context, valid
or not, stays exactly as it was. -/
def Obligations.InitWithOtherLengthsFailsWhole : Prop :=
  ∀ (s : State) (n klen ivlen : Nat) (p : List Byte) (slot : Slot),
    s.payload? = some p → p.length = klen + ivlen → s.slots[n]? = some slot →
    let u : State := { slots := s.slots, requests := s.requests.tail, responses := s.responses ++ [⟨.invalidLength, []⟩] }
    (¬ LegalPair .hc128 klen ivlen → exec (.hc128Init n klen ivlen) s = .next u) ∧
    (¬ LegalPair .hc256 klen ivlen → exec (.hc256Init n klen ivlen) s = .next u) ∧
    (¬ LegalPair .rabbit klen ivlen → exec (.rabbitInit n klen ivlen) s = .next u)

/-- 40_datapath.md R58, R59, R64 with 41_hc128.md R80: on a valid context HC128.XOR completes with OK; response byte k is
payload byte k XORed with the k-th upcoming keystream byte; the context advances by exactly LEN bytes (with the number
of steps of 70_reset_and_hazards.md R131); no other context changes. -/
def Obligations.Hc128XorStreamsTheKeystream : Prop :=
  ∀ (s : State) (n : Nat) (src : List Byte) (slot : Slot),
    s.payload? = some src → s.slots[n]? = some slot → slot.hc128.valid = true →
    ∃ c data, exec (.hc128Xor n src.length) s =
        .next { slots := s.slots.set n { slot with hc128 := c }, requests := s.requests.tail,
                responses := s.responses ++ [⟨.ok, data⟩] } ∧
      data.length = src.length ∧
      (∀ k, k < src.length → data.getD k 0 = src.getD k 0 ^^^ slot.hc128.upcoming refill128 k) ∧
      Context.AdvancedBy refill128 src.length slot.hc128 c

/-- 40_datapath.md R58, R59, R64 with 42_hc256.md R95: as for HC-128, with `Refill_256`. -/
def Obligations.Hc256XorStreamsTheKeystream : Prop :=
  ∀ (s : State) (n : Nat) (src : List Byte) (slot : Slot),
    s.payload? = some src → s.slots[n]? = some slot → slot.hc256.valid = true →
    ∃ c data, exec (.hc256Xor n src.length) s =
        .next { slots := s.slots.set n { slot with hc256 := c }, requests := s.requests.tail,
                responses := s.responses ++ [⟨.ok, data⟩] } ∧
      data.length = src.length ∧
      (∀ k, k < src.length → data.getD k 0 = src.getD k 0 ^^^ slot.hc256.upcoming refill256 k) ∧
      Context.AdvancedBy refill256 src.length slot.hc256 c

/-- 40_datapath.md R58, R59, R64 with 43_rabbit.md R108: as for HC-128, with 16-byte blocks and `Refill_RB`. -/
def Obligations.RabbitXorStreamsTheKeystream : Prop :=
  ∀ (s : State) (n : Nat) (src : List Byte) (slot : Slot),
    s.payload? = some src → s.slots[n]? = some slot → slot.rabbit.valid = true →
    ∃ c data, exec (.rabbitXor n src.length) s =
        .next { slots := s.slots.set n { slot with rabbit := c }, requests := s.requests.tail,
                responses := s.responses ++ [⟨.ok, data⟩] } ∧
      data.length = src.length ∧
      (∀ k, k < src.length → data.getD k 0 = src.getD k 0 ^^^ slot.rabbit.upcoming refillRabbit k) ∧
      Context.AdvancedBy refillRabbit src.length slot.rabbit c

/-- 40_datapath.md R60: RELEASE reports NO_CONTEXT on an invalid context; on a valid one it completes with OK, no data and
VALID = 0, and no other context changes. The other fields of the context become unspecified: the statement says nothing
of them. -/
def Obligations.ReleaseDestroysOnlyItsCipher : Prop :=
  ∀ (s : State) (n : Nat) (slot : Slot), s.payload? = some [] → s.slots[n]? = some slot →
    let noContext : State :=
      { slots := s.slots, requests := s.requests.tail, responses := s.responses ++ [⟨.noContext, []⟩] }
    (slot.hc128.valid = true → ∃ c, c.valid = false ∧ exec (.hc128Release n) s =
      .next { slots := s.slots.set n { slot with hc128 := c }, requests := s.requests.tail,
              responses := s.responses ++ [⟨.ok, []⟩] }) ∧
    (slot.hc128.valid = false → exec (.hc128Release n) s = .next noContext) ∧
    (slot.hc256.valid = true → ∃ c, c.valid = false ∧ exec (.hc256Release n) s =
      .next { slots := s.slots.set n { slot with hc256 := c }, requests := s.requests.tail,
              responses := s.responses ++ [⟨.ok, []⟩] }) ∧
    (slot.hc256.valid = false → exec (.hc256Release n) s = .next noContext) ∧
    (slot.rabbit.valid = true → ∃ c, c.valid = false ∧ exec (.rabbitRelease n) s =
      .next { slots := s.slots.set n { slot with rabbit := c }, requests := s.requests.tail,
              responses := s.responses ++ [⟨.ok, []⟩] }) ∧
    (slot.rabbit.valid = false → exec (.rabbitRelease n) s = .next noContext)

/-- 40_datapath.md R58: an XOR on an invalid context reports NO_CONTEXT, with no data and no change. -/
def Obligations.XorNeedsACipher : Prop :=
  ∀ (s : State) (n : Nat) (p : List Byte) (slot : Slot), s.payload? = some p → s.slots[n]? = some slot →
    let u : State := { slots := s.slots, requests := s.requests.tail, responses := s.responses ++ [⟨.noContext, []⟩] }
    (slot.hc128.valid = false → exec (.hc128Xor n p.length) s = .next u) ∧
    (slot.hc256.valid = false → exec (.hc256Xor n p.length) s = .next u) ∧
    (slot.rabbit.valid = false → exec (.rabbitXor n p.length) s = .next u)

/-- THE MODEL'S CHOICE (log 10), from 30_encoding.md R47: a command for a context that does not exist, which `decode`
never gives, ends with ILLEGAL_COMMAND like its word. -/
def Obligations.MissingContextIsIllegal : Prop :=
  ∀ (s : State) (i : Instr) (p : List Byte), s.payload? = some p → p.length = i.payloadLength → s.nctx ≤ i.ctx →
    exec i s = .next { slots := s.slots, requests := s.requests.tail, responses := s.responses ++ [⟨.illegalCommand, []⟩] }

/-- 40_datapath.md R63: an XOR of no bytes on a valid context responds OK with no data and changes no field of it. -/
def Obligations.EmptyXorChangesNothing : Prop :=
  ∀ (s : State) (n : Nat) (slot : Slot), s.payload? = some [] → s.slots[n]? = some slot →
    let u : State := { slots := s.slots, requests := s.requests.tail, responses := s.responses ++ [⟨.ok, []⟩] }
    (slot.hc128.valid = true → exec (.hc128Xor n 0) s = .next u) ∧
    (slot.hc256.valid = true → exec (.hc256Xor n 0) s = .next u) ∧
    (slot.rabbit.valid = true → exec (.rabbitXor n 0) s = .next u)

/-! ### Laws of the datapath -/

/-- 40_datapath.md R62 (an inference the spec marks as derived): two lists of XOR commands on one valid context that
present the same bytes return the same concatenated data and leave the same state, KSB and KSN included. -/
def Obligations.ChunkingIsInvisible : Prop :=
  ∀ (s : State) (e : Engine) (n : Nat) (slot : Slot) (as bs : List (List Byte)),
    n < 16 → s.slots[n]? = some slot → slot.validOf e = true → as.flatten = bs.flatten →
    (∀ a ∈ as, a.length < 2 ^ 24) → (∀ b ∈ bs, b.length < 2 ^ 24) →
    ∃ u v ra rb, s.runCommands (as.map (xorCommand e n)) = .next u ∧ s.runCommands (bs.map (xorCommand e n)) = .next v ∧
      u.slots = v.slots ∧ u.responses = s.responses ++ ra ∧ v.responses = s.responses ++ rb ∧
      (∀ r ∈ ra ++ rb, r.status = .ok) ∧ (ra.map Response.data).flatten = (rb.map Response.data).flatten

/-- 40_datapath.md R61 (an inference the spec marks as derived): after an INIT with legal lengths, from any state, and
XOR commands of total length m, the next XOR of `src` responds with `src[k] ⊕ KS_E(key, iv)[m + k]`. R61's last sentence,
on commands to other contexts and commands with a non-OK status in between, is not in it. -/
def Obligations.KeystreamLaw : Prop :=
  ∀ (s : State) (e : Engine) (n : Nat) (key iv src : List Byte) (chunks : List (List Byte)),
    n < s.nctx → n < 16 → LegalPair e key.length iv.length → (∀ a ∈ chunks, a.length < 2 ^ 24) → src.length < 2 ^ 24 →
    ∃ u rs data,
      s.runCommands (initCommand e n key iv :: (chunks.map (xorCommand e n) ++ [xorCommand e n src])) = .next u ∧
      u.responses = s.responses ++ rs ++ [⟨.ok, data⟩] ∧ (∀ r ∈ rs, r.status = .ok) ∧ data.length = src.length ∧
      ∀ k, k < src.length → data.getD k 0 = src.getD k 0 ^^^ KS e key iv (chunks.flatten.length + k)

/-- 40_datapath.md R65 (an inference the spec marks as derived): a text XORed after INIT and m bytes, XORed again after
an INIT with the same key and IV and m bytes, on any other state, comes back. -/
def Obligations.XorIsSelfInverse : Prop :=
  ∀ (s s' : State) (e : Engine) (n n' : Nat) (key iv pre pre' text : List Byte),
    n < s.nctx → n < 16 → n' < s'.nctx → n' < 16 → LegalPair e key.length iv.length → pre.length < 2 ^ 24 →
    pre'.length = pre.length → text.length < 2 ^ 24 →
    ∃ u rs cipher,
      s.runCommands [initCommand e n key iv, xorCommand e n pre, xorCommand e n text] = .next u ∧
      u.responses = s.responses ++ rs ++ [⟨.ok, cipher⟩] ∧
      ∃ u' rs',
        s'.runCommands [initCommand e n' key iv, xorCommand e n' pre', xorCommand e n' cipher] = .next u' ∧
        u'.responses = s'.responses ++ rs' ++ [⟨.ok, text⟩]

/-- 30_encoding.md R51: `xorn` of L bytes expands into max(1, ⌈L / (2^24 − 1)⌉) XOR commands that take the bytes in order,
each at most 2^24 − 1 of them; on a valid context the responses together are the bytes XORed with the upcoming
keystream. `ks` is `xorn` of zero bytes, and its responses together are the next L keystream bytes. -/
def Obligations.XornPiecesCoverTheBytes : Prop :=
  (∀ (input : List Byte), (xornPieces input.length input).flatten = input ∧
    (∀ a ∈ xornPieces input.length input, a.length ≤ 2 ^ 24 - 1) ∧
    (xornPieces input.length input).length = max 1 ((input.length + (2 ^ 24 - 2)) / (2 ^ 24 - 1))) ∧
  (∀ (s : State) (e : Engine) (n : Nat) (slot : Slot) (input : List Byte), n < 16 → s.slots[n]? = some slot →
    slot.validOf e = true →
    ∃ u rs, s.runCommands (xornCommands e n input) = .next u ∧ u.responses = s.responses ++ rs ∧
      (rs.map Response.data).flatten.length = input.length ∧
      ∀ k, k < input.length → (rs.map Response.data).flatten.getD k 0 = input.getD k 0 ^^^ slot.upcoming e k) ∧
  (∀ (s : State) (e : Engine) (n len : Nat) (slot : Slot), n < 16 → s.slots[n]? = some slot →
    slot.validOf e = true →
    ∃ u rs, s.runCommands (ksCommands e n len) = .next u ∧ u.responses = s.responses ++ rs ∧
      (rs.map Response.data).flatten = (List.range len).map (slot.upcoming e))

/-! ### Independence of the contexts -/

/-- 10_state.md R12: a command reads and writes only the context it names. Every other slot, and the other engines'
contexts of its own slot, are as before; and in two states that agree on the named context, the same transaction gives
the same response and leaves the same named context, whatever the other contexts hold. The fields of it that INIT and
RELEASE leave unspecified (R57, R60) are equal too by THE MODEL'S CHOICE (log 5): their free values are keyed by the
engine, the index and the context's own counter. -/
def Obligations.CommandReadsAndWritesOnlyItsContext : Prop :=
  (∀ (s u : State) (t : Transaction) (rest : List Request) (i : Instr),
    s.requests = .command t :: rest → decode s.nctx t.cmd = .ok i → step s = .next u →
    u.slots.length = s.slots.length ∧ (∀ m, m ≠ i.ctx → u.slots[m]? = s.slots[m]?) ∧
    ∀ e, e ≠ i.engine → State.AgreeOn e i.ctx s u) ∧
  (∀ (s s' u u' : State) (t : Transaction) (rest rest' : List Request) (i : Instr),
    s.requests = .command t :: rest → s'.requests = .command t :: rest' → s.nctx = s'.nctx →
    decode s.nctx t.cmd = .ok i → State.AgreeOn i.engine i.ctx s s' → step s = .next u → step s' = .next u' →
    State.AgreeOn i.engine i.ctx u u' ∧
    ∃ r, u.responses = s.responses ++ [r] ∧ u'.responses = s'.responses ++ [r])

/-- 10_state.md R13: VALID of a context becomes 1 by INIT with status OK, 0 by RELEASE with status OK, 0 by reset, and no
other event writes it: no other command, no other status, and no idle step. -/
def Obligations.OnlyInitReleaseAndResetWriteValid : Prop :=
  ∀ (s u : State) (e : Engine) (n : Nat) (a b : Slot),
    step s = .next u → s.slots[n]? = some a → u.slots[n]? = some b →
    (s.requests = [] → b.validOf e = a.validOf e) ∧
    (∀ inProgress rest, s.requests = .reset inProgress :: rest → b.validOf e = false) ∧
    (∀ t rest r, s.requests = .command t :: rest → u.responses = s.responses ++ [r] →
      let init := ∃ k v, decode s.nctx t.cmd = .ok (Instr.init e n k v)
      let release := decode s.nctx t.cmd = .ok (Instr.release e n)
      (init → r.status = .ok → b.validOf e = true) ∧
      (release → r.status = .ok → b.validOf e = false) ∧
      (r.status ≠ .ok ∨ (¬ init ∧ ¬ release) → b.validOf e = a.validOf e))

/-- 20_memory.md R36: commands to different contexts commute: in either order they leave the same contexts, and each gets
the same response. The fields that INIT and RELEASE leave unspecified (R57, R60) are equal too by THE MODEL'S CHOICE
(log 5): their free values are keyed by the context, so not by the order. -/
def Obligations.CommandsToDifferentContextsCommute : Prop :=
  ∀ (s : State) (t₁ t₂ : Transaction) (i₁ i₂ : Instr),
    t₁.Admitted → t₂.Admitted → decode s.nctx t₁.cmd = .ok i₁ → decode s.nctx t₂.cmd = .ok i₂ →
    (i₁.engine, i₁.ctx) ≠ (i₂.engine, i₂.ctx) →
    ∃ u v r₁ r₂, s.runCommands [t₁, t₂] = .next u ∧ s.runCommands [t₂, t₁] = .next v ∧ u.slots = v.slots ∧
      u.responses = s.responses ++ [r₁, r₂] ∧ v.responses = s.responses ++ [r₂, r₁]

/-- 10_state.md R13, R25 and 70_reset_and_hazards.md R124: fields of invalid contexts, and consumed bytes of KSB, are never
observed: from two states that differ only in them, every step answers alike, with the same responses. -/
def Obligations.HiddenFieldsAreNeverObserved : Prop :=
  ∀ s t u : State, s.Alike t → step s = .next u → ∃ v, step t = .next v ∧ u.Alike v

/-! ### HC-128 -/

/-- 41_hc128.md R72, R73 and R74: the expansion buffer has 1280 words; words 0–7 come from the key and 8–15 from the IV
with the byte index taken modulo 16; every later word is given by the recurrence; P is W[256..767] and Q is
W[768..1279]. -/
def Obligations.Hc128ExpansionFillsTheTables : Prop :=
  ∀ (key iv : List Byte),
    let W := fun i => (expansion128 key iv).getD i 0
    (expansion128 key iv).size = 1280 ∧
    (∀ i, i < 8 → W i = le32 key (4 * i % 16) ∧ W (8 + i) = le32 iv (4 * i % 16)) ∧
    (∀ i, 16 ≤ i → i < 1280 → W i = f2 (W (i - 2)) + W (i - 7) + f1 (W (i - 15)) + W (i - 16) + BitVec.ofNat 32 i) ∧
    (∀ (i : Nat) (h : i < 512), (tables128 key iv).p[i] = W (256 + i) ∧ (tables128 key iv).q[i] = W (768 + i))

/-- 41_hc128.md R77 in the document's own form: `I mod 1024 < 512` selects P, the position is `I mod 512`, indices are
reduced modulo 512; the selected table changes at that position only, the other table not at all, and I counts on. -/
def Obligations.Hc128StepUpdatesOneWord : Prop :=
  ∀ ctx : HcCore 9,
    let j := ctx.i.toNat % 512
    let at' := fun (t : Table 9) (a : Nat) => t[a % 512]'(Nat.mod_lt _ (by decide))
    let h := fun (t : Table 9) (x : Word) => at' t (x.toNat % 256) + at' t (256 + x.toNat / 65536 % 256)
    let r := step128 ctx
    r.2.i = ctx.i + 1 ∧
    (ctx.i.toNat % 1024 < 512 →
      let v := at' ctx.p j + g1 (at' ctx.p (j + 512 - 3)) (at' ctx.p (j + 512 - 10)) (at' ctx.p (j + 512 - 511))
      r.1 = h ctx.q (at' ctx.p (j + 512 - 12)) ^^^ v ∧ r.2.q = ctx.q ∧
      ∀ a, a < 512 → at' r.2.p a = if a = j then v else at' ctx.p a) ∧
    (512 ≤ ctx.i.toNat % 1024 →
      let v := at' ctx.q j + g2 (at' ctx.q (j + 512 - 3)) (at' ctx.q (j + 512 - 10)) (at' ctx.q (j + 512 - 511))
      r.1 = h ctx.p (at' ctx.q (j + 512 - 12)) ^^^ v ∧ r.2.p = ctx.p ∧
      ∀ a, a < 512 → at' r.2.q a = if a = j then v else at' ctx.q a)

/-- 41_hc128.md R75 (its net effect is an inference the spec marks as derived): warm-up step k < 512 gives P[k] the
published form and leaves every other word; step 512 + k does the same for Q[k] with g2 and h2. -/
def Obligations.Hc128WarmupWritesTheOutputBack : Prop :=
  ∀ (ctx : HcCore 9) (k : Nat), k < 512 →
    let a : BitVec 9 := BitVec.ofNat 9 k
    (ctx.i = BitVec.ofNat 64 k →
      let r := warmStep128 ctx k
      r.p = ctx.p.write a ((ctx.p.read a + g1 (ctx.p.read (a - 3)) (ctx.p.read (a - 10)) (ctx.p.read (a - 511)))
        ^^^ ctx.h1 (ctx.p.read (a - 12))) ∧ r.q = ctx.q ∧ r.i = BitVec.ofNat 64 (k + 1)) ∧
    (ctx.i = BitVec.ofNat 64 (512 + k) →
      let r := warmStep128 ctx (512 + k)
      r.q = ctx.q.write a ((ctx.q.read a + g2 (ctx.q.read (a - 3)) (ctx.q.read (a - 10)) (ctx.q.read (a - 511)))
        ^^^ ctx.h2 (ctx.q.read (a - 12))) ∧ r.p = ctx.p ∧ r.i = BitVec.ofNat 64 (512 + k + 1))

/-- 41_hc128.md R75 and R76: the warm-up is the loop of R75, 1024 steps of R77 from I = 0. With `c k` the context before
step k, each step writes its output word over the word it updated, P[0..511] in order and then Q[0..511]; no other word
changes, and I becomes k + 1. Setup is this warm-up of the tables of R74, which leaves I = 1024, and then I = 0. -/
def Obligations.Hc128SetupEndsAtCounterZero : Prop :=
  (∀ ctx : HcCore 9, ∃ c : Nat → HcCore 9,
    c 0 = { ctx with i := 0 } ∧ warmup128 ctx = c 1024 ∧
    ∀ k, k < 512 →
      ((c (k + 1)).i = BitVec.ofNat 64 (k + 1) ∧ (c (k + 1)).q = (c k).q ∧
        ∀ (a : Nat) (h : a < 512), (c (k + 1)).p[a] = if a = k then (step128 (c k)).1 else (c k).p[a]) ∧
      ((c (512 + k + 1)).i = BitVec.ofNat 64 (512 + k + 1) ∧ (c (512 + k + 1)).p = (c (512 + k)).p ∧
        ∀ (a : Nat) (h : a < 512),
          (c (512 + k + 1)).q[a] = if a = k then (step128 (c (512 + k))).1 else (c (512 + k)).q[a])) ∧
  (∀ (key iv : List Byte),
    (warmup128 (tables128 key iv)).i = 1024#64 ∧ (setup128 key iv).i = 0#64 ∧
    (setup128 key iv).p = (warmup128 (tables128 key iv)).p ∧ (setup128 key iv).q = (warmup128 (tables128 key iv)).q)

/-- 41_hc128.md R75, the whole warm-up as equations between the tables before and after it (an inference the spec marks
as derived): every word takes the published form, in order. At position k a word of the same table is the warmed one below
k and the loaded one from k on (`mix`); h1 reads Q as loaded, and h2 reads P after its warm-up. The equations determine
the warmed tables. -/
def Obligations.Hc128WarmupTakesThePublishedForm : Prop :=
  ∀ ctx : HcCore 9,
    let d := warmup128 ctx
    let at' := fun (t : Table 9) (a : Nat) => t[a % 512]'(Nat.mod_lt _ (by decide))
    let h := fun (t : Table 9) (x : Word) => at' t (x.toNat % 256) + at' t (256 + x.toNat / 65536 % 256)
    let mix := fun (loaded warmed : Table 9) (k a : Nat) => if a % 512 < k then at' warmed a else at' loaded a
    ∀ k, k < 512 →
      let p := mix ctx.p d.p k
      let q := mix ctx.q d.q k
      at' d.p k = (at' ctx.p k + g1 (p (k + 512 - 3)) (p (k + 512 - 10)) (p (k + 512 - 511))) ^^^ h ctx.q (p (k + 512 - 12)) ∧
      at' d.q k = (at' ctx.q k + g2 (q (k + 512 - 3)) (q (k + 512 - 10)) (q (k + 512 - 511))) ^^^ h d.p (q (k + 512 - 12))

/-- 10_state.md R18 (an inference the spec marks as derived): the HC rules read only I mod 1024 (HC-128) or I mod 2048
(HC-256), so the wrap of I is unobservable. -/
def Obligations.HcCounterIsReadModuloThePeriod : Prop :=
  (∀ (p q : Table 9) (i i' : BitVec 64), i.toNat % 1024 = i'.toNat % 1024 →
    (step128 ⟨p, q, i⟩).1 = (step128 ⟨p, q, i'⟩).1 ∧ (step128 ⟨p, q, i⟩).2.p = (step128 ⟨p, q, i'⟩).2.p ∧
    (step128 ⟨p, q, i⟩).2.q = (step128 ⟨p, q, i'⟩).2.q) ∧
  (∀ (p q : Table 10) (i i' : BitVec 64), i.toNat % 2048 = i'.toNat % 2048 →
    (step256 ⟨p, q, i⟩).1 = (step256 ⟨p, q, i'⟩).1 ∧ (step256 ⟨p, q, i⟩).2.p = (step256 ⟨p, q, i'⟩).2.p ∧
    (step256 ⟨p, q, i⟩).2.q = (step256 ⟨p, q, i'⟩).2.q)

/-- 10_state.md R18: I counts the extraction steps since setup: 0 after setup, one more per refill, modulo 2^64. -/
def Obligations.HcCounterCountsRefills : Prop :=
  (∀ key iv : List Byte, (setup128 key iv).i = 0 ∧ (setup256 key iv).i = 0) ∧
  (∀ (r : Nat) (c : HcCore 9), (afterRefills refill128 r c).i = c.i + BitVec.ofNat 64 r) ∧
  (∀ (r : Nat) (c : HcCore 10), (afterRefills refill256 r c).i = c.i + BitVec.ofNat 64 r)

/-- 41_hc128.md R78, 42_hc256.md R93, 00_scope.md R10: a refill is the step's word serialised little-endian, and reading
the four bytes back little-endian gives the word. -/
def Obligations.RefillSerialisesLittleEndian : Prop :=
  (∀ w : Word, (∀ b, b < 4 → ((bytesLe w).toList.getD b 0).toNat = w.toNat / 256 ^ b % 256) ∧
    le32 (bytesLe w).toList 0 = w) ∧
  (∀ c : HcCore 9, refill128 c = (bytesLe (step128 c).1, (step128 c).2)) ∧
  (∀ c : HcCore 10, refill256 c = (bytesLe (step256 c).1, (step256 c).2))

/-- 00_scope.md R8 and 41_hc128.md R66–R69: f1, f2, g1, g2 as functions of bit positions: `rotr` moves bit b to position
(b − n) mod 32, `rotl` to (b + n) mod 32; exclusive or comes before the sum in g1 and g2. -/
def Obligations.HcFunctionsRotateCircularly : Prop :=
  (∀ (x : Word) (n b : Nat), 0 < n → n < 32 → b < 32 →
    (rotr x n).getLsbD b = x.getLsbD ((b + n) % 32) ∧ (rotl x n).getLsbD b = x.getLsbD ((b + 32 - n) % 32)) ∧
  (∀ x : Word, f1 x = rotr x 7 ^^^ rotr x 18 ^^^ (x >>> 3) ∧ f2 x = rotr x 17 ^^^ rotr x 19 ^^^ (x >>> 10)) ∧
  (∀ x y z : Word,
    (g1 x y z).toNat = ((rotr x 10 ^^^ rotr z 23).toNat + (rotr y 8).toNat) % 2 ^ 32 ∧
    (g2 x y z).toNat = ((rotl x 10 ^^^ rotl z 23).toNat + (rotl y 8).toNat) % 2 ^ 32)

/-! ### HC-256 -/

/-- 42_hc256.md R87, R88 and R89: the expansion buffer has 2560 words; words 0–7 come from the key and 8–15 from the IV;
every later word is given by the recurrence; P is W[512..1535] and Q is W[1536..2559]. -/
def Obligations.Hc256ExpansionFillsTheTables : Prop :=
  ∀ (key iv : List Byte),
    let W := fun i => (expansion256 key iv).getD i 0
    (expansion256 key iv).size = 2560 ∧
    (∀ i, i < 8 → W i = le32 key (4 * i) ∧ W (8 + i) = le32 iv (4 * i)) ∧
    (∀ i, 16 ≤ i → i < 2560 → W i = f2 (W (i - 2)) + W (i - 7) + f1 (W (i - 15)) + W (i - 16) + BitVec.ofNat 32 i) ∧
    (∀ (i : Nat) (h : i < 1024), (tables256 key iv).p[i] = W (512 + i) ∧ (tables256 key iv).q[i] = W (1536 + i))

/-- 42_hc256.md R92 with R83–R86: `I mod 2048 < 1024` selects P, the position is `I mod 1024`, indices are reduced modulo
1024; the selected table changes at that position only, the other table not at all, and I counts on. -/
def Obligations.Hc256StepUpdatesOneWord : Prop :=
  ∀ ctx : HcCore 10,
    let j := ctx.i.toNat % 1024
    let at' := fun (t : Table 10) (a : Nat) => t[a % 1024]'(Nat.mod_lt _ (by decide))
    let g := fun (t : Table 10) (x y : Word) => (rotr x 10 ^^^ rotr y 23) + at' t (x ^^^ y).toNat
    let h := fun (t : Table 10) (x : Word) => at' t (x.toNat % 256) + at' t (256 + x.toNat / 256 % 256)
      + at' t (512 + x.toNat / 65536 % 256) + at' t (768 + x.toNat / 16777216)
    let r := step256 ctx
    r.2.i = ctx.i + 1 ∧
    (ctx.i.toNat % 2048 < 1024 →
      let v := at' ctx.p j + at' ctx.p (j + 1024 - 10)
        + g ctx.q (at' ctx.p (j + 1024 - 3)) (at' ctx.p (j + 1024 - 1023))
      r.1 = h ctx.q (at' ctx.p (j + 1024 - 12)) ^^^ v ∧ r.2.q = ctx.q ∧
      ∀ a, a < 1024 → at' r.2.p a = if a = j then v else at' ctx.p a) ∧
    (1024 ≤ ctx.i.toNat % 2048 →
      let v := at' ctx.q j + at' ctx.q (j + 1024 - 10)
        + g ctx.p (at' ctx.q (j + 1024 - 3)) (at' ctx.q (j + 1024 - 1023))
      r.1 = h ctx.p (at' ctx.q (j + 1024 - 12)) ^^^ v ∧ r.2.p = ctx.p ∧
      ∀ a, a < 1024 → at' r.2.q a = if a = j then v else at' ctx.q a)

/-- 42_hc256.md R90 and R91: setup's tables are those after exactly 4096 extraction steps from I = 0, their output
discarded (a discarded step is a refill whose bytes are not used), and then I = 0. -/
def Obligations.Hc256SetupDiscards4096Steps : Prop :=
  ∀ (key iv : List Byte),
    let c := afterRefills refill256 4096 { tables256 key iv with i := 0 }
    (setup256 key iv).p = c.p ∧ (setup256 key iv).q = c.q ∧ (setup256 key iv).i = 0#64

/-! ### Rabbit -/

/-- 43_rabbit.md R99: the counter update threads one carry bit from C[0] to C[7]: there are carries b_0 .. b_8 with b_0
the old CARRY and b_8 the new one, and each word and carry out are the exact sum's low 32 bits and bit 32. X is not
written. A is the list of R99. -/
def Obligations.RabbitCounterThreadsTheCarry : Prop :=
  ∀ ctx : RabbitCore,
    let A : Vector Nat 8 := #v[0x4D34D34D, 0xD34D34D3, 0x34D34D34, 0x4D34D34D, 0xD34D34D3, 0x34D34D34, 0x4D34D34D,
      0xD34D34D3]
    ∃ b : Nat → Bool,
      b 0 = ctx.carry ∧ (ctrUpdate ctx).carry = b 8 ∧ (ctrUpdate ctx).x = ctx.x ∧
      ∀ (i : Nat) (h : i < 8),
        (ctrUpdate ctx).c[i].toNat + 2 ^ 32 * (b (i + 1)).toNat = ctx.c[i].toNat + A[i] + (b i).toNat

/-- 43_rabbit.md R99, as one equation (an inference): the eight words, the constants and the carry bit are one addition of
256-bit numbers with carry in and carry out. -/
def Obligations.RabbitCounterIsOneLongAddition : Prop :=
  ∀ ctx : RabbitCore,
    let value := fun v : Vector Word 8 => v.toList.foldr (fun w acc => w.toNat + 2 ^ 32 * acc) 0
    value (ctrUpdate ctx).c + 2 ^ 256 * (ctrUpdate ctx).carry.toNat = value ctx.c + value rabbitA + ctx.carry.toNat

/-- 43_rabbit.md R100: g is the exclusive or of the halves of the exact square of the sum modulo 2^32. -/
def Obligations.RabbitGSquaresExactly : Prop :=
  ∀ u v : Word,
    let t := (u.toNat + v.toNat) % 2 ^ 32
    (gRabbit u v).toNat = (t * t % 2 ^ 32) ^^^ (t * t / 2 ^ 32)

/-- 43_rabbit.md R101: one round, word by word: G is taken from the old X and the updated C, and every new X from G. -/
def Obligations.RabbitRoundFollowsTheEquations : Prop :=
  ∀ ctx : RabbitCore,
    let n := nextState ctx
    let G := fun (i : Fin 8) => gRabbit ctx.x[i] (ctrUpdate ctx).c[i]
    n.c = (ctrUpdate ctx).c ∧ n.carry = (ctrUpdate ctx).carry ∧
    (∀ i : Fin 8, i.val % 2 = 0 → n.x[i] = G i + rotl (G (i - 1)) 16 + rotl (G (i - 2)) 16) ∧
    (∀ i : Fin 8, i.val % 2 = 1 → n.x[i] = G i + rotl (G (i - 1)) 8 + G (i - 2))

/-- 43_rabbit.md R97, R98 and R102: key setup is four rounds from the state of R98, then each counter word XORed with the
state word four positions ahead; X and CARRY stay as the fourth round left them. -/
def Obligations.RabbitKeySetupFinalizes : Prop :=
  ∀ key : List Byte,
    let k := fun i => le32 key (4 * i)
    let start : RabbitCore := rabbitLoad key
    let r := nextState (nextState (nextState (nextState start)))
    start.carry = false ∧
    (∀ i : Fin 4, start.x[2 * i.val]'(by omega) = k i ∧ start.c[2 * i.val]'(by omega) = rotl (k ((i.val + 2) % 4)) 16 ∧
      start.x[2 * i.val + 1]'(by omega) = (k ((i.val + 3) % 4) <<< 16) ||| (k ((i.val + 2) % 4) >>> 16) ∧
      start.c[2 * i.val + 1]'(by omega) =
        (k i &&& 0xFFFF0000#32) ||| (k ((i.val + 1) % 4) &&& 0x0000FFFF#32)) ∧
    (keySetup key).x = r.x ∧ (keySetup key).carry = r.carry ∧
    ∀ i : Fin 8, (keySetup key).c[i] = r.c[i] ^^^ r.x[(i.val + 4) % 8]'(by omega)

/-- 43_rabbit.md R103: IV setup XORs the combinations of the half-words iv_0 .. iv_3 into the counters (`a || b` puts a in
bits 31..16), keeps X and CARRY, and runs four more rounds. -/
def Obligations.RabbitIvSetupMixesHalfWords : Prop :=
  ∀ (ctx : RabbitCore) (iv : List Byte),
    let half := fun m : Nat => (byteAt iv (2 * m)).setWidth 16 ||| ((byteAt iv (2 * m + 1)).setWidth 16 <<< 8)
    let pair := fun a b : BitVec 16 => (a ++ b : BitVec 32)
    let w : Vector Word 4 := #v[pair (half 1) (half 0), pair (half 3) (half 1), pair (half 3) (half 2),
      pair (half 2) (half 0)]
    ∃ m : RabbitCore, m.x = ctx.x ∧ m.carry = ctx.carry ∧
      (∀ i : Fin 8, m.c[i] = ctx.c[i] ^^^ w[i.val % 4]'(by omega)) ∧
      ivSetup ctx iv = nextState (nextState (nextState (nextState m)))

/-- 43_rabbit.md R105 and R106: a refill runs one round and serialises s0, s1, s2, s3, each little-endian, with s_m from
X[2m], the high half of X[(2m + 5) mod 8] and the low half of X[(2m + 3) mod 8]. -/
def Obligations.RabbitRefillExtractsAfterOneRound : Prop :=
  ∀ ctx : RabbitCore,
    let n := nextState ctx
    (refillRabbit ctx).2 = n ∧
    ∀ (m : Fin 4) (b : Fin 4),
      (refillRabbit ctx).1[4 * m.val + b.val]'(by omega) =
        (n.x[2 * m.val]'(by omega) ^^^ (n.x[(2 * m.val + 5) % 8]'(by omega) >>> 16)
          ^^^ (n.x[(2 * m.val + 3) % 8]'(by omega) <<< 16)).extractLsb' (8 * b.val) 8

/-- 43_rabbit.md R107 (an inference the spec marks as derived): with an all-zero IV the keystream is the no-IV keystream
with its first 64 bytes dropped. -/
def Obligations.RabbitZeroIvDropsFourBlocks : Prop :=
  ∀ (key : List Byte) (k : Nat), KS .rabbit key (List.replicate 8 0#8) k = KS .rabbit key [] (64 + k)
end

