-- ==== Sys2Proof/Laws/Decode.lean ====
section
/-! SUPPORT. The fields of a command word and the range test of the decoder. -/

namespace Sys2Proof

theorem inRange_iff (n m : Nat) : inRange n m = true ↔ n < m := by
  induction n generalizing m with
  | zero => cases m <;> simp [inRange]
  | succ n ih => cases m <;> simp [inRange, ih]

theorem inRange_eq_false_iff (n m : Nat) : inRange n m = false ↔ m ≤ n := by
  rw [← Bool.not_eq_true, inRange_iff]; omega

theorem bits_lt (w : Word) (hi lo : Nat) : bits w hi lo < 2 ^ (hi - lo + 1) := Nat.mod_lt _ (Nat.two_pow_pos _)

theorem engField_lt (w : Word) : engField w < 4 := bits_lt w 1 0
theorem opField_lt (w : Word) : opField w < 4 := bits_lt w 3 2
theorem ctxField_lt (w : Word) : ctxField w < 16 := bits_lt w 7 4
theorem klenField_lt (w : Word) : klenField w < 256 := bits_lt w 15 8
theorem ivlenField_lt (w : Word) : ivlenField w < 256 := bits_lt w 23 16
theorem lenField_lt (w : Word) : lenField w < 2 ^ 24 := bits_lt w 31 8

theorem Config.nctx_pos : 1 ≤ Config.nctx := Nat.le_add_left _ _
theorem Config.nctx_le : Config.nctx ≤ 16 := Config.extraContexts.isLt

/-! The words the encoder writes, as numbers -/

theorem engineCode_lt (e : Engine) : (engineCode e).toNat < 3 := by cases e <;> decide

theorem append_toNat {m n : Nat} (x : BitVec m) (y : BitVec n) : (x ++ y).toNat = x.toNat * 2 ^ n + y.toNat := by
  rw [BitVec.toNat_append, ← Nat.shiftLeft_add_eq_or_of_lt y.isLt, Nat.shiftLeft_eq]

theorem initWord_toNat (e : Engine) {n k v : Nat} (hn : n < 16) (hk : k < 256) (hv : v < 256) :
    (initWord e n k v).toNat = v * 65536 + k * 256 + n * 16 + (engineCode e).toNat := by
  have := engineCode_lt e
  refine (append_toNat (0#8 ++ BitVec.ofNat 8 v ++ BitVec.ofNat 8 k ++ BitVec.ofNat 4 n ++ 0#2) (engineCode e)).trans ?_
  simp only [append_toNat, BitVec.toNat_ofNat]
  omega

theorem xorWord_toNat (e : Engine) {n l : Nat} (hn : n < 16) (hl : l < 2 ^ 24) :
    (xorWord e n l).toNat = l * 256 + n * 16 + 4 + (engineCode e).toNat := by
  have := engineCode_lt e
  refine (append_toNat (BitVec.ofNat 24 l ++ BitVec.ofNat 4 n ++ 1#2) (engineCode e)).trans ?_
  simp only [append_toNat, BitVec.toNat_ofNat]
  omega

theorem releaseWord_toNat (e : Engine) {n : Nat} (hn : n < 16) :
    (releaseWord e n).toNat = n * 16 + 8 + (engineCode e).toNat := by
  have := engineCode_lt e
  refine (append_toNat (0#24 ++ BitVec.ofNat 4 n ++ 2#2) (engineCode e)).trans ?_
  simp only [append_toNat, BitVec.toNat_ofNat]
  omega

@[simp] theorem encode_init (e : Engine) (n k v : Nat) : encode (Instr.init e n k v) = initWord e n k v := by
  cases e <;> rfl
@[simp] theorem encode_xor (e : Engine) (n l : Nat) : encode (Instr.xor e n l) = xorWord e n l := by cases e <;> rfl
@[simp] theorem encode_release (e : Engine) (n : Nat) : encode (Instr.release e n) = releaseWord e n := by
  cases e <;> rfl

/-! The masks of the opcode map, as numbers -/

theorem and_maskXor (w : Word) : (w &&& 0x0000000F#32).toNat = w.toNat % 16 := by
  rw [BitVec.toNat_and]
  exact Nat.and_two_pow_sub_one_eq_mod (n := 4) ..

theorem and_maskInit (w : Word) : (w &&& 0xFF00000F#32).toNat = bits w 31 24 * 2 ^ 24 + w.toNat % 16 := by
  have h : (w &&& 0xFF00000F#32) = (w >>> 24) <<< 24 ||| w &&& 0xF#32 := by ext i hi; interval_cases i <;> simp
  have h2 : ((w >>> 24) <<< 24 ||| w &&& 0xF#32) = ((w >>> 24) <<< 24 + (w &&& 0xF#32)) := by
    symm; apply BitVec.add_eq_or_of_and_eq_zero
    ext i hi; interval_cases i <;> simp
  have := w.isLt
  rw [h, h2, BitVec.toNat_add, and_maskXor]
  simp [bits, Nat.shiftLeft_eq, Nat.shiftRight_eq_div_pow]
  omega

theorem and_maskRelease (w : Word) : (w &&& 0xFFFFFF0F#32).toNat = bits w 31 8 * 2 ^ 8 + w.toNat % 16 := by
  have h : (w &&& 0xFFFFFF0F#32) = (w >>> 8) <<< 8 ||| w &&& 0xF#32 := by ext i hi; interval_cases i <;> simp
  have h2 : ((w >>> 8) <<< 8 ||| w &&& 0xF#32) = ((w >>> 8) <<< 8 + (w &&& 0xF#32)) := by
    symm; apply BitVec.add_eq_or_of_and_eq_zero
    ext i hi; interval_cases i <;> simp
  have := w.isLt
  rw [h, h2, BitVec.toNat_add, and_maskXor]
  simp [bits, Nat.shiftLeft_eq, Nat.shiftRight_eq_div_pow]
  omega

/-- The four low bits of a word are OP and ENG. -/
theorem low_bits (w : Word) : w.toNat % 16 = opField w * 4 + engField w := by simp [opField, engField, bits]; omega

theorem OpcodeRow.matches_iff (r : OpcodeRow) (w : Word) : r.Matches w = true ↔ (w &&& r.mask).toNat = r.value.toNat := by
  simp [OpcodeRow.Matches, BitVec.toNat_eq]

/-! What the decoder can answer -/

theorem engineCode_of_engineOfCode {w : Word} {e : Engine} (h : engineOfCode (engField w) = some e) :
    (engineCode e).toNat = engField w := by
  have := engField_lt w
  have h4 : engField w = 0 ∨ engField w = 1 ∨ engField w = 2 ∨ engField w = 3 := by omega
  rcases h4 with q | q | q | q <;> rw [q] at h ⊢ <;> simp [engineOfCode] at h <;> subst h <;> rfl

/-- A word that decodes is an INIT, an XOR or a RELEASE by its OP, with its fields as operands, must-be-zero bits zero
and CTX < NCTX (R48). -/
theorem decode_cases {nctx : Nat} {w : Word} {i : Instr} (h : decode nctx w = .ok i) :
    ∃ e, engineOfCode (engField w) = some e ∧ ctxField w < nctx ∧
      ((opField w = 0 ∧ bits w 31 24 = 0 ∧ i = Instr.init e (ctxField w) (klenField w) (ivlenField w)) ∨
        (opField w = 1 ∧ i = Instr.xor e (ctxField w) (lenField w)) ∨
        (opField w = 2 ∧ bits w 31 8 = 0 ∧ i = Instr.release e (ctxField w))) := by
  unfold decode at h
  have ho := opField_lt w
  split at h
  · cases h
  rename_i e he
  refine ⟨e, he, ?_⟩
  split at h
  · cases h
  split at h
  · cases h
  rename_i hr
  refine ⟨by by_contra hc; exact hr ((inRange_eq_false_iff _ _).2 (by omega)), ?_⟩
  split at h
  · split at h
    · cases h
    · rename_i a b; cases h; exact .inl ⟨a, by simpa using b, rfl⟩
  split at h
  · rename_i a; cases h; exact .inr (.inl ⟨a, rfl⟩)
  split at h
  · cases h
  · rename_i a b c; cases h; exact .inr (.inr ⟨by omega, by simpa using c, rfl⟩)

/-- The context a decoded command names exists. -/
theorem decode_ctx_lt {nctx : Nat} {w : Word} {i : Instr} (h : decode nctx w = .ok i) : i.ctx < nctx := by
  obtain ⟨e, -, hc, ⟨-, -, rfl⟩ | ⟨-, rfl⟩ | ⟨-, -, rfl⟩⟩ := decode_cases h <;> cases e <;> exact hc

end Sys2Proof
end

