-- ==== Sys2Proof/Laws/State.lean ====
section
/-! SUPPORT. One lemma per field per update of State, Slot and Context, so that no later proof unfolds a record update. -/

namespace Sys2Proof.Machine

variable {κ : Type} {B : Nat}

@[simp] theorem State.respond_slots (s : State) (st : Status) (d : List Byte) : (s.respond st d).slots = s.slots := rfl
@[simp] theorem State.respond_requests (s : State) (st : Status) (d : List Byte) :
    (s.respond st d).requests = s.requests.tail := rfl
@[simp] theorem State.respond_responses (s : State) (st : Status) (d : List Byte) :
    (s.respond st d).responses = s.responses ++ [⟨st, d⟩] := rfl
@[simp] theorem State.respond_nctx (s : State) (st : Status) (d : List Byte) : (s.respond st d).nctx = s.nctx := rfl

@[simp] theorem State.finish_slots (s : State) : s.finish.slots = s.slots := rfl
@[simp] theorem State.finish_requests (s : State) : s.finish.requests = s.requests.tail := rfl
@[simp] theorem State.finish_responses (s : State) : s.finish.responses = s.responses := rfl

@[simp] theorem State.putSlot_slots (s : State) (n : Nat) (a : Slot) : (s.putSlot n a).slots = s.slots.set n a := rfl
@[simp] theorem State.putSlot_requests (s : State) (n : Nat) (a : Slot) : (s.putSlot n a).requests = s.requests := rfl
@[simp] theorem State.putSlot_responses (s : State) (n : Nat) (a : Slot) : (s.putSlot n a).responses = s.responses := rfl
@[simp] theorem State.putSlot_nctx (s : State) (n : Nat) (a : Slot) : (s.putSlot n a).nctx = s.nctx := by
  simp [State.nctx]

@[simp] theorem hostReset_slots (s : State) : (hostReset s).slots = s.slots.mapIdx Slot.destroyed := rfl
@[simp] theorem hostReset_requests (s : State) : (hostReset s).requests = s.requests.tail := rfl
@[simp] theorem hostReset_responses (s : State) : (hostReset s).responses = s.responses := rfl
@[simp] theorem hostReset_nctx (s : State) : (hostReset s).nctx = s.nctx := by simp [State.nctx]

@[simp] theorem Context.consume_valid (c : Context κ B) : c.consume.valid = c.valid := rfl
@[simp] theorem Context.consume_core (c : Context κ B) : c.consume.core = c.core := rfl
@[simp] theorem Context.consume_ksb (c : Context κ B) : c.consume.ksb = c.ksb := rfl
@[simp] theorem Context.consume_ksn (c : Context κ B) : c.consume.ksn.val = c.ksn.val - 1 := rfl
@[simp] theorem Context.consume_epoch (c : Context κ B) : c.consume.epoch = c.epoch := rfl

@[simp] theorem EngineOps.constructed_valid (E : EngineOps κ B) (n : Nat) (c : Context κ B) (key iv : List Byte) :
    (E.constructed n c key iv).valid = true := rfl
@[simp] theorem EngineOps.constructed_core (E : EngineOps κ B) (n : Nat) (c : Context κ B) (key iv : List Byte) :
    (E.constructed n c key iv).core = E.setup key iv := rfl
@[simp] theorem EngineOps.constructed_ksn (E : EngineOps κ B) (n : Nat) (c : Context κ B) (key iv : List Byte) :
    (E.constructed n c key iv).ksn = 0 := rfl
@[simp] theorem EngineOps.destroyed_valid (E : EngineOps κ B) (n : Nat) (c : Context κ B) :
    (E.destroyed n c).valid = false := rfl

@[simp] theorem hc128Ops_get (a : Slot) : hc128Ops.get a = a.hc128 := rfl
@[simp] theorem hc256Ops_get (a : Slot) : hc256Ops.get a = a.hc256 := rfl
@[simp] theorem rabbitOps_get (a : Slot) : rabbitOps.get a = a.rabbit := rfl
@[simp] theorem hc128Ops_put (c : Context (HcCore 9) 4) (a : Slot) : hc128Ops.put c a = { a with hc128 := c } := rfl
@[simp] theorem hc256Ops_put (c : Context (HcCore 10) 4) (a : Slot) : hc256Ops.put c a = { a with hc256 := c } := rfl
@[simp] theorem rabbitOps_put (c : Context RabbitCore 16) (a : Slot) : rabbitOps.put c a = { a with rabbit := c } := rfl
@[simp] theorem hc128Ops_engine : hc128Ops.engine = .hc128 := rfl
@[simp] theorem hc256Ops_engine : hc256Ops.engine = .hc256 := rfl
@[simp] theorem rabbitOps_engine : rabbitOps.engine = .rabbit := rfl
@[simp] theorem hc128Ops_setup : hc128Ops.setup = setup128 := rfl
@[simp] theorem hc256Ops_setup : hc256Ops.setup = setup256 := rfl
@[simp] theorem rabbitOps_setup : rabbitOps.setup = setupRabbit := rfl
@[simp] theorem hc128Ops_refill : hc128Ops.refill = refill128 := rfl
@[simp] theorem hc256Ops_refill : hc256Ops.refill = refill256 := rfl
@[simp] theorem rabbitOps_refill : rabbitOps.refill = refillRabbit := rfl

@[simp] theorem State.payload?_command (sl : List Slot) (t : Transaction) (rest : List Request) (rs : List Response) :
    (State.mk sl (.command t :: rest) rs).payload? = some t.payload := rfl

theorem State.payload?_of_requests {s : State} {t : Transaction} {rest : List Request}
    (h : s.requests = .command t :: rest) : s.payload? = some t.payload := by
  simp [State.payload?, h]

@[simp] theorem State.resetWith_nctx (n : Nat) : (State.resetWith n).nctx = n := by simp [State.nctx, State.resetWith]

end Sys2Proof.Machine
end

