-- ==== Sys2Proof/Laws/Ops.lean ====
section
/-! SUPPORT. What each shared operation can do, said once: tables, the payload, the XOR datapath, the generic commands. -/

namespace Sys2Proof.Machine

variable {κ : Type} {B : Nat}

/-! Tables -/

@[simp] theorem Table.read_write_same {k : Nat} (t : Table k) (j : BitVec k) (v : Word) : (t.write j v).read j = v := by
  simp [Table.read, Table.write]

theorem Table.read_write_other {k : Nat} (t : Table k) {j l : BitVec k} (h : l ≠ j) (v : Word) :
    (t.write j v).read l = t.read l := by
  have : j.toNat ≠ l.toNat := fun e => h (BitVec.eq_of_toNat_eq e.symm)
  simp [Table.read, Table.write, this]

/-! The payload -/

@[simp] theorem memRead_all (p : List Byte) : memRead p 0 p.length = p := by simp [memRead]

theorem memRead_all' {p : List Byte} {n : Nat} (h : p.length = n) : memRead p 0 n = p := by subst h; simp

@[simp] theorem memRead_key (a b : List Byte) : memRead (a ++ b) 0 a.length = a := by simp [memRead]

@[simp] theorem memRead_iv (a b : List Byte) : memRead (a ++ b) a.length b.length = b := by simp [memRead]

/-! The streaming XOR datapath -/

@[simp] theorem Context.refilled_valid (f : κ → Vector Byte B × κ) (c : Context κ B) :
    (c.refilled f).valid = c.valid := by unfold Context.refilled; split <;> rfl

@[simp] theorem Context.refilled_epoch (f : κ → Vector Byte B × κ) (c : Context κ B) :
    (c.refilled f).epoch = c.epoch := by unfold Context.refilled; split <;> rfl

theorem Context.refilled_of_zero (f : κ → Vector Byte B × κ) {c : Context κ B} (h : c.ksn.val = 0) :
    c.refilled f = { c with core := (f c.core).2, ksb := (f c.core).1, ksn := Fin.last B } := by
  simp [Context.refilled, h]

theorem Context.refilled_of_pos (f : κ → Vector Byte B × κ) {c : Context κ B} (h : 0 < c.ksn.val) :
    c.refilled f = c := by
  have : c.ksn.val ≠ 0 := by omega
  simp [Context.refilled, this]

@[simp] theorem Context.nextByte_valid (f : κ → Vector Byte B × κ) (c : Context κ B) :
    (c.nextByte f).2.valid = c.valid := by simp [Context.nextByte]

@[simp] theorem Context.nextByte_epoch (f : κ → Vector Byte B × κ) (c : Context κ B) :
    (c.nextByte f).2.epoch = c.epoch := by simp [Context.nextByte]

/-- After a byte is consumed fewer than a block are pending, whatever was pending before (10_state.md R17). -/
theorem Context.nextByte_ksn_lt (hB : 0 < B) (f : κ → Vector Byte B × κ) (c : Context κ B) :
    (c.nextByte f).2.ksn.val < B := by
  have := (c.refilled f).ksn.isLt
  simp [Context.nextByte]
  omega

@[simp] theorem Context.xorBytes_nil (f : κ → Vector Byte B × κ) (c : Context κ B) : c.xorBytes f [] = ([], c) := rfl

theorem Context.xorBytes_cons (f : κ → Vector Byte B × κ) (b : Byte) (bs : List Byte) (c : Context κ B) :
    c.xorBytes f (b :: bs) =
      ((b ^^^ (c.nextByte f).1) :: ((c.nextByte f).2.xorBytes f bs).1, ((c.nextByte f).2.xorBytes f bs).2) := rfl

@[simp] theorem Context.xorBytes_length (f : κ → Vector Byte B × κ) (bs : List Byte) (c : Context κ B) :
    (c.xorBytes f bs).1.length = bs.length := by
  induction bs generalizing c with
  | nil => rfl
  | cons b bs ih => simp [Context.xorBytes_cons, ih]

@[simp] theorem Context.xorBytes_valid (f : κ → Vector Byte B × κ) (bs : List Byte) (c : Context κ B) :
    (c.xorBytes f bs).2.valid = c.valid := by
  induction bs generalizing c with
  | nil => rfl
  | cons b bs ih => simp [Context.xorBytes_cons, ih]

/-- The datapath is one loop over the bytes, wherever the bytes are cut. -/
theorem Context.xorBytes_append (f : κ → Vector Byte B × κ) (as bs : List Byte) (c : Context κ B) :
    c.xorBytes f (as ++ bs) =
      ((c.xorBytes f as).1 ++ ((c.xorBytes f as).2.xorBytes f bs).1, ((c.xorBytes f as).2.xorBytes f bs).2) := by
  induction as generalizing c with
  | nil => simp
  | cons a as ih => simp [Context.xorBytes_cons, ih]

/-- A nonempty XOR leaves fewer than a block pending; an empty one changes nothing. -/
theorem Context.xorBytes_ksn_lt (hB : 0 < B) (f : κ → Vector Byte B × κ) (bs : List Byte) (c : Context κ B)
    (h : c.ksn.val < B) : (c.xorBytes f bs).2.ksn.val < B := by
  induction bs generalizing c with
  | nil => exact h
  | cons b bs ih => exact ih _ (c.nextByte_ksn_lt hB f)

/-! The generic commands -/

theorem onSlot_of {len n : Nat} {s : State} {p : List Byte} {slot : Slot} (body : List Byte → Slot → Answer)
    (hp : s.payload? = some p) (hl : p.length = len) (hs : s.slots[n]? = some slot) :
    onSlot len n s body = body p slot := by
  simp [onSlot, hp, hl, hs]

theorem onSlot_of_missing {len n : Nat} {s : State} {p : List Byte} (body : List Byte → Slot → Answer)
    (hp : s.payload? = some p) (hl : p.length = len) (hs : s.nctx ≤ n) :
    onSlot len n s body = raise .illegalCommand s := by
  have : s.slots[n]? = none := List.getElem?_eq_none hs
  simp [onSlot, hp, hl, this]

/-- Whenever a command answers a next state, its payload has the right length, and either the context does not exist
or the command's own rule gave the answer. -/
theorem onSlot_cases {len n : Nat} {s u : State} {body : List Byte → Slot → Answer}
    (h : onSlot len n s body = .next u) :
    ∃ p, s.payload? = some p ∧ p.length = len ∧
      ((s.slots[n]? = none ∧ u = s.respond .illegalCommand []) ∨
        ∃ slot, s.slots[n]? = some slot ∧ body p slot = .next u) := by
  unfold onSlot raise at h
  split at h
  · cases h
  · rename_i p hp
    split at h
    · rename_i hl
      refine ⟨p, hp, hl, ?_⟩
      split at h
      · rename_i hn
        exact .inl ⟨hn, by cases h; rfl⟩
      · rename_i slot hs
        exact .inr ⟨slot, hs, h⟩
    · cases h

/-- `InitGeneric` on a context that exists: the two outcomes of R57. -/
theorem initGeneric_of {E : EngineOps κ B} {n klen ivlen : Nat} {s : State} {p : List Byte} {slot : Slot}
    (hp : s.payload? = some p) (hl : p.length = klen + ivlen) (hs : s.slots[n]? = some slot) :
    initGeneric E n klen ivlen s =
      if legalLengths E.engine klen ivlen then
        .next ((s.putSlot n (E.put (E.constructed n (E.get slot) (memRead p 0 klen) (memRead p klen ivlen)) slot)).respond
          .ok [])
      else .next (s.respond .invalidLength []) := by
  rw [initGeneric, onSlot_of _ hp hl hs]
  rfl

/-- `XorGeneric` on a context that exists: the two outcomes of R58. -/
theorem xorGeneric_of {E : EngineOps κ B} {n len : Nat} {s : State} {p : List Byte} {slot : Slot}
    (hp : s.payload? = some p) (hl : p.length = len) (hs : s.slots[n]? = some slot) :
    xorGeneric E n len s =
      if (E.get slot).valid then
        .next ((s.putSlot n (E.put ((E.get slot).xorBytes E.refill p).2 slot)).respond .ok
          ((E.get slot).xorBytes E.refill p).1)
      else .next (s.respond .noContext []) := by
  rw [xorGeneric, onSlot_of _ hp hl hs, memRead_all' hl]
  rfl

/-- `ReleaseGeneric` on a context that exists: the two outcomes of R60. -/
theorem releaseGeneric_of {E : EngineOps κ B} {n : Nat} {s : State} {p : List Byte} {slot : Slot}
    (hp : s.payload? = some p) (hl : p.length = 0) (hs : s.slots[n]? = some slot) :
    releaseGeneric E n s =
      if (E.get slot).valid then
        .next ((s.putSlot n (E.put (E.destroyed n (E.get slot)) slot)).respond .ok [])
      else .next (s.respond .noContext []) := by
  rw [releaseGeneric, onSlot_of _ hp hl hs]
  rfl

/-- Everything a generic command can do when it answers a next state (R54, R57, R58, R60): one response, and at most
the context of its own engine in its own slot changed. -/
def OneContextAnswer (E : EngineOps κ B) (n : Nat) (s u : State) : Prop :=
  (∃ st, st ≠ .ok ∧ u = s.respond st []) ∨
    ∃ slot c data, s.slots[n]? = some slot ∧ u = (s.putSlot n (E.put c slot)).respond .ok data

theorem initGeneric_cases {E : EngineOps κ B} {n klen ivlen : Nat} {s u : State}
    (h : initGeneric E n klen ivlen s = .next u) : OneContextAnswer E n s u := by
  obtain ⟨p, hp, hl, ⟨hn, rfl⟩ | ⟨slot, hs, hb⟩⟩ := onSlot_cases h
  · exact .inl ⟨_, by decide, rfl⟩
  · split at hb
    · cases hb; exact .inr ⟨slot, _, _, hs, rfl⟩
    · cases hb; exact .inl ⟨_, by decide, rfl⟩

theorem xorGeneric_cases {E : EngineOps κ B} {n len : Nat} {s u : State}
    (h : xorGeneric E n len s = .next u) : OneContextAnswer E n s u := by
  obtain ⟨p, hp, hl, ⟨hn, rfl⟩ | ⟨slot, hs, hb⟩⟩ := onSlot_cases h
  · exact .inl ⟨_, by decide, rfl⟩
  · split at hb
    · cases hb; exact .inr ⟨slot, _, _, hs, rfl⟩
    · cases hb; exact .inl ⟨_, by decide, rfl⟩

theorem releaseGeneric_cases {E : EngineOps κ B} {n : Nat} {s u : State}
    (h : releaseGeneric E n s = .next u) : OneContextAnswer E n s u := by
  obtain ⟨p, hp, hl, ⟨hn, rfl⟩ | ⟨slot, hs, hb⟩⟩ := onSlot_cases h
  · exact .inl ⟨_, by decide, rfl⟩
  · split at hb
    · cases hb; exact .inr ⟨slot, _, _, hs, rfl⟩
    · cases hb; exact .inl ⟨_, by decide, rfl⟩

end Sys2Proof.Machine
end

