-- ==== Sys2Proof/Laws/Engines.lean ====
section
/-! SUPPORT. What the three engines have in common, so that a claim about every engine is proved once: each engine kind
has its `EngineOps`, its commands are the generic ones, and its context is one of the three of a slot. -/

namespace Sys2Proof.Machine

variable {κ : Type} {B : Nat}

/-- A relation on contexts holds between the contexts of two slots, engine by engine. -/
def SlotRel (R : ∀ {κ : Type} {B : Nat}, Context κ B → Context κ B → Prop) (a b : Slot) : Prop :=
  R a.hc128 b.hc128 ∧ R a.hc256 b.hc256 ∧ R a.rabbit b.rabbit

/-- `E` is the engine kind `e`: how it reads and writes its context in a slot, and what its commands are. -/
structure EngineOps.Models (e : Engine) (E : EngineOps κ B) : Prop where
  engine_eq : E.engine = e
  block_pos : 0 < B
  get_put : ∀ c a, E.get (E.put c a) = c
  put_put : ∀ c d a, E.put c (E.put d a) = E.put c a
  put_get : ∀ a, E.put (E.get a) a = a
  valid_eq : ∀ a : Slot, a.validOf e = (E.get a).valid
  agree_iff : ∀ a b, Slot.AgreeOn e a b ↔ E.get a = E.get b
  agree_other : ∀ e', e' ≠ e → ∀ c a, Slot.AgreeOn e' a (E.put c a)
  rel_get : ∀ (R : ∀ {κ : Type} {B : Nat}, Context κ B → Context κ B → Prop) (a b : Slot), SlotRel R a b →
    R (E.get a) (E.get b)
  rel_put : ∀ (R : ∀ {κ : Type} {B : Nat}, Context κ B → Context κ B → Prop) (a b : Slot) (c d : Context κ B),
    SlotRel R a b → R c d → SlotRel R (E.put c a) (E.put d b)
  init_eq : ∀ n k v s, exec (Instr.init e n k v) s = initGeneric E n k v s
  xor_eq : ∀ n l s, exec (Instr.xor e n l) s = xorGeneric E n l s
  release_eq : ∀ n s, exec (Instr.release e n) s = releaseGeneric E n s
  ks_eq : ∀ key iv, KS e key iv = keystream E.refill (E.setup key iv)

theorem hc128Ops_models : hc128Ops.Models .hc128 :=
  ⟨rfl, by decide, fun _ _ => rfl, fun _ _ _ => rfl, fun _ => rfl, fun _ => rfl, fun _ _ => Iff.rfl,
    by intro e h c a; cases e <;> simp_all [Slot.AgreeOn], fun _ _ _ h => h.1, fun _ _ _ _ _ h hr => ⟨hr, h.2⟩,
    fun _ _ _ _ => rfl, fun _ _ _ => rfl, fun _ _ => rfl, fun _ _ => rfl⟩

theorem hc256Ops_models : hc256Ops.Models .hc256 :=
  ⟨rfl, by decide, fun _ _ => rfl, fun _ _ _ => rfl, fun _ => rfl, fun _ => rfl, fun _ _ => Iff.rfl,
    by intro e h c a; cases e <;> simp_all [Slot.AgreeOn], fun _ _ _ h => h.2.1, fun _ _ _ _ _ h hr => ⟨h.1, hr, h.2.2⟩,
    fun _ _ _ _ => rfl, fun _ _ _ => rfl, fun _ _ => rfl, fun _ _ => rfl⟩

theorem rabbitOps_models : rabbitOps.Models .rabbit :=
  ⟨rfl, by decide, fun _ _ => rfl, fun _ _ _ => rfl, fun _ => rfl, fun _ => rfl, fun _ _ => Iff.rfl,
    by intro e h c a; cases e <;> simp_all [Slot.AgreeOn], fun _ _ _ h => h.2.2, fun _ _ _ _ _ h hr => ⟨h.1, h.2.1, hr⟩,
    fun _ _ _ _ => rfl, fun _ _ _ => rfl, fun _ _ => rfl, fun _ _ => rfl⟩

/-- Every engine kind has its operations. -/
theorem exists_models (e : Engine) : ∃ (κ : Type) (B : Nat) (E : EngineOps κ B), E.Models e := by
  cases e
  · exact ⟨_, _, _, hc128Ops_models⟩
  · exact ⟨_, _, _, hc256Ops_models⟩
  · exact ⟨_, _, _, rabbitOps_models⟩

/-- Every command is an INIT, an XOR or a RELEASE of some engine kind. -/
theorem instr_cases (i : Instr) :
    (∃ e n k v, i = Instr.init e n k v) ∨ (∃ e n l, i = Instr.xor e n l) ∨ ∃ e n, i = Instr.release e n := by
  cases i with
  | hc128Init n k v => exact .inl ⟨.hc128, n, k, v, rfl⟩
  | hc256Init n k v => exact .inl ⟨.hc256, n, k, v, rfl⟩
  | rabbitInit n k v => exact .inl ⟨.rabbit, n, k, v, rfl⟩
  | hc128Xor n l => exact .inr (.inl ⟨.hc128, n, l, rfl⟩)
  | hc256Xor n l => exact .inr (.inl ⟨.hc256, n, l, rfl⟩)
  | rabbitXor n l => exact .inr (.inl ⟨.rabbit, n, l, rfl⟩)
  | hc128Release n => exact .inr (.inr ⟨.hc128, n, rfl⟩)
  | hc256Release n => exact .inr (.inr ⟨.hc256, n, rfl⟩)
  | rabbitRelease n => exact .inr (.inr ⟨.rabbit, n, rfl⟩)

@[simp] theorem Instr.init_ctx (e : Engine) (n k v : Nat) : (Instr.init e n k v).ctx = n := by cases e <;> rfl
@[simp] theorem Instr.xor_ctx (e : Engine) (n l : Nat) : (Instr.xor e n l).ctx = n := by cases e <;> rfl
@[simp] theorem Instr.release_ctx (e : Engine) (n : Nat) : (Instr.release e n).ctx = n := by cases e <;> rfl
@[simp] theorem Instr.init_engine (e : Engine) (n k v : Nat) : (Instr.init e n k v).engine = e := by cases e <;> rfl
@[simp] theorem Instr.xor_engine (e : Engine) (n l : Nat) : (Instr.xor e n l).engine = e := by cases e <;> rfl
@[simp] theorem Instr.release_engine (e : Engine) (n : Nat) : (Instr.release e n).engine = e := by cases e <;> rfl
@[simp] theorem Instr.init_payloadLength (e : Engine) (n k v : Nat) : (Instr.init e n k v).payloadLength = k + v := by
  cases e <;> rfl
@[simp] theorem Instr.xor_payloadLength (e : Engine) (n l : Nat) : (Instr.xor e n l).payloadLength = l := by
  cases e <;> rfl
@[simp] theorem Instr.release_payloadLength (e : Engine) (n : Nat) : (Instr.release e n).payloadLength = 0 := by
  cases e <;> rfl

theorem legalLengths_iff (e : Engine) (k v : Nat) : legalLengths e k v = true ↔ LegalPair e k v := by
  cases e <;> simp [legalLengths, LegalPair]
  omega

/-- Everything a command can do when it answers a next state (R54): one response; on a status other than OK nothing
else, and on OK one context written. -/
theorem exec_cases {i : Instr} {s u : State} (h : exec i s = .next u) :
    ∃ (κ : Type) (B : Nat) (E : EngineOps κ B), E.Models i.engine ∧ OneContextAnswer E i.ctx s u := by
  obtain ⟨e, n, k, v, rfl⟩ | ⟨e, n, l, rfl⟩ | ⟨e, n, rfl⟩ := instr_cases i <;> obtain ⟨κ, B, E, hE⟩ := exists_models e
  · rw [hE.init_eq] at h
    exact ⟨κ, B, E, by simpa using hE, by simpa using initGeneric_cases h⟩
  · rw [hE.xor_eq] at h
    exact ⟨κ, B, E, by simpa using hE, by simpa using xorGeneric_cases h⟩
  · rw [hE.release_eq] at h
    exact ⟨κ, B, E, by simpa using hE, by simpa using releaseGeneric_cases h⟩

theorem step_of_command {s : State} {t : Transaction} {rest : List Request} (h : s.requests = .command t :: rest) :
    step s = execute t s := by simp [step, h]

theorem ifAdmitted_of {t : Transaction} (answer : Answer) (ha : t.Admitted) : ifAdmitted t answer = answer := if_pos ha

theorem ifAdmitted_of_not {t : Transaction} (answer : Answer) (ha : ¬ t.Admitted) :
    ifAdmitted t answer = .refused .payloadLengthMismatch := if_neg ha

/-- A next state comes from an admitted transaction only (40_datapath.md R53). -/
theorem ifAdmitted_cases {t : Transaction} {answer : Answer} {u : State} (h : ifAdmitted t answer = .next u) :
    t.Admitted ∧ answer = .next u := by
  unfold ifAdmitted at h
  split at h
  · exact ⟨‹_›, h⟩
  · cases h

theorem step_of_reset {s : State} {inProgress : Option Transaction} {rest : List Request}
    (h : s.requests = .reset inProgress :: rest) : step s = executeReset inProgress s := by simp [step, h]

theorem executeReset_of {inProgress : Option Transaction} (s : State) (ha : ∀ t ∈ inProgress, t.Admitted) :
    executeReset inProgress s = .next (hostReset s) := by
  cases inProgress with
  | none => rfl
  | some t => exact ifAdmitted_of _ (ha t rfl)

/-- Everything a reset does when it answers a next state. -/
theorem executeReset_cases {inProgress : Option Transaction} {s u : State} (h : executeReset inProgress s = .next u) :
    (∀ t ∈ inProgress, t.Admitted) ∧ u = hostReset s := by
  cases inProgress with
  | none => cases h; exact ⟨nofun, rfl⟩
  | some t =>
    obtain ⟨ha, hu⟩ := ifAdmitted_cases h
    cases hu
    exact ⟨fun t' ht => by cases ht; exact ha, rfl⟩

theorem execute_of_decode {s : State} {t : Transaction} {i : Instr} (ha : t.Admitted)
    (hd : decode s.nctx t.cmd = .ok i) : execute t s = exec i s := by
  rw [execute, ifAdmitted_of _ ha, hd]

/-- Everything `Execute` can do when it answers a next state (R54). -/
theorem execute_cases {s u : State} {t : Transaction} (h : execute t s = .next u) :
    t.Admitted ∧ ((∃ why, decode s.nctx t.cmd = .error why ∧ u = s.respond .illegalCommand []) ∨
      ∃ i, decode s.nctx t.cmd = .ok i ∧ exec i s = .next u) := by
  obtain ⟨ha, h⟩ := ifAdmitted_cases h
  refine ⟨ha, ?_⟩
  split at h
  · rename_i why hd
    exact .inl ⟨why, hd, by cases h; rfl⟩
  · rename_i i hd
    exact .inr ⟨i, hd, h⟩

theorem State.putSlot_self {s : State} {n : Nat} {a : Slot} (h : s.slots[n]? = some a) : s.putSlot n a = s := by
  obtain ⟨hn, rfl⟩ := List.getElem?_eq_some_iff.1 h
  unfold State.putSlot
  rw [List.set_getElem_self hn]

/-- A command is a function `F` of its payload and of the one context it names, to that context and the response: it
reads and writes nothing else (10_state.md R12). -/
theorem exec_is_local (i : Instr) {E : EngineOps κ B} (hE : E.Models i.engine) :
    ∃ F : List Byte → Context κ B → Context κ B × Response, ∀ s p slot, s.payload? = some p →
      p.length = i.payloadLength → s.slots[i.ctx]? = some slot →
      exec i s = .next ((s.putSlot i.ctx (E.put (F p (E.get slot)).1 slot)).respond (F p (E.get slot)).2.status
        (F p (E.get slot)).2.data) := by
  obtain ⟨e, n, k, v, rfl⟩ | ⟨e, n, l, rfl⟩ | ⟨e, n, rfl⟩ := instr_cases i <;>
    simp only [Instr.init_engine, Instr.xor_engine, Instr.release_engine] at hE
  · refine ⟨fun p c => if legalLengths e k v then (E.constructed n c (memRead p 0 k) (memRead p k v), ⟨.ok, []⟩)
      else (c, ⟨.invalidLength, []⟩), fun s p slot hp hl hs => ?_⟩
    simp only [Instr.init_payloadLength, Instr.init_ctx] at hl hs ⊢
    rw [hE.init_eq, initGeneric_of hp hl hs, hE.engine_eq]
    split
    · rfl
    · simp [hE.put_get, State.putSlot_self hs]
  · refine ⟨fun p c => if c.valid then ((c.xorBytes E.refill p).2, ⟨.ok, (c.xorBytes E.refill p).1⟩)
      else (c, ⟨.noContext, []⟩), fun s p slot hp hl hs => ?_⟩
    simp only [Instr.xor_payloadLength, Instr.xor_ctx] at hl hs ⊢
    rw [hE.xor_eq, xorGeneric_of hp hl hs]
    split
    · rfl
    · simp [hE.put_get, State.putSlot_self hs]
  · refine ⟨fun p c => if c.valid then (E.destroyed n c, ⟨.ok, []⟩) else (c, ⟨.noContext, []⟩),
      fun s p slot hp hl hs => ?_⟩
    simp only [Instr.release_payloadLength, Instr.release_ctx] at hl hs ⊢
    rw [hE.release_eq, releaseGeneric_of hp hl hs]
    split
    · rfl
    · simp [hE.put_get, State.putSlot_self hs]

end Sys2Proof.Machine
end

