-- ==== Sys2Proof/Laws/Hc.lean ====
section
/-! SUPPORT. The HC engines: the expansion buffer, table positions as numbers, the counter through setup,
and the warm-up of HC-128. -/

namespace Sys2Proof.Machine

/-! The expansion (41_hc128.md R73, 42_hc256.md R88) -/

@[simp] theorem expand_size (n : Nat) (w : Array Word) : (expand n w).size = w.size + n := by
  induction n generalizing w with
  | zero => rfl
  | succ n ih => simp [expand, ih]; omega

/-- The expansion keeps the words it starts from. -/
theorem expand_of_lt (n : Nat) (w : Array Word) {i : Nat} (h : i < w.size) : (expand n w).getD i 0 = w.getD i 0 := by
  induction n generalizing w with
  | zero => rfl
  | succ n ih =>
    rw [expand, ih _ (by simp; omega)]
    simp [Array.getD, h, Nat.lt_succ_of_lt h, Array.getElem_push]

/-- The word at index `w.size` of an expansion is the one `expandWord` computes. -/
theorem expand_at_size (n : Nat) (w : Array Word) : (expand (n + 1) w).getD w.size 0 = expandWord w := by
  rw [expand, expand_of_lt _ _ (by simp)]
  simp

@[simp] theorem load128_size (key iv : List Byte) : (load128 key iv).size = 16 := by simp [load128]
@[simp] theorem load256_size (key iv : List Byte) : (load256 key iv).size = 16 := by simp [load256]

/-! Table positions -/

/-- Bit 9 of I, the table selector of 41_hc128.md R77. -/
theorem bit9_eq_false_iff (i : BitVec 64) : i.getLsbD 9 = false ↔ i.toNat % 1024 < 512 := by
  rw [BitVec.getLsbD, Nat.testBit_eq_decide_div_mod_eq]; simp; omega

/-- Bit 10 of I, the table selector of 42_hc256.md R92. -/
theorem bit10_eq_false_iff (i : BitVec 64) : i.getLsbD 10 = false ↔ i.toNat % 2048 < 1024 := by
  rw [BitVec.getLsbD, Nat.testBit_eq_decide_div_mod_eq]; simp; omega

theorem Table.read_eq {k : Nat} (t : Table k) (j : BitVec k) (a : Nat) (h : j.toNat = a % 2 ^ k) :
    t.read j = t[a % 2 ^ k]'(Nat.mod_lt _ (Nat.two_pow_pos k)) := by simp [Table.read, h]

theorem Table.getElem_write {k : Nat} (t : Table k) (j : BitVec k) (v : Word) {a : Nat} (h : a < 2 ^ k) :
    (t.write j v)[a]'h = if a = j.toNat then v else t[a]'h := by
  simp only [Table.write, Vector.getElem_set, eq_comm]

@[simp] theorem Table.write_write {k : Nat} (t : Table k) (j : BitVec k) (v w : Word) :
    (t.write j v).write j w = t.write j w := by simp [Table.write]

/-- `j ⊟ d` of 00_scope.md R9 at the position of R77, as a number. -/
theorem position128_sub (i : BitVec 64) {d : Nat} (hd : d < 512) :
    ((i.setWidth 9 : BitVec 9) - BitVec.ofNat 9 d).toNat = (i.toNat % 512 + 512 - d) % 2 ^ 9 := by
  rw [BitVec.toNat_sub]; simp; omega

/-- `j ⊟ d` at the position of R92, as a number. -/
theorem position256_sub (i : BitVec 64) {d : Nat} (hd : d < 1024) :
    ((i.setWidth 10 : BitVec 10) - BitVec.ofNat 10 d).toNat = (i.toNat % 1024 + 1024 - d) % 2 ^ 10 := by
  rw [BitVec.toNat_sub]; simp; omega

/-! The counter -/

@[simp] theorem step128_i (c : HcCore 9) : (step128 c).2.i = c.i + 1 := by unfold step128; split <;> rfl
@[simp] theorem step256_i (c : HcCore 10) : (step256 c).2.i = c.i + 1 := by unfold step256; split <;> rfl

@[simp] theorem warmStep128_i (c : HcCore 9) (k : Nat) : (warmStep128 c k).i = c.i + 1 := by
  unfold warmStep128
  simp only
  split <;> exact step128_i c

/-- The counter after any number of warm-up steps (41_hc128.md R75). -/
theorem warmSteps128_i (l : List Nat) (c : HcCore 9) :
    (l.foldl warmStep128 c).i = c.i + BitVec.ofNat 64 l.length := by
  induction l generalizing c with
  | nil => simp
  | cons a l ih =>
    rw [List.foldl_cons, ih, warmStep128_i, List.length_cons, BitVec.ofNat_add, BitVec.add_assoc]
    congr 1
    exact BitVec.add_comm _ _

/-! The warm-up of HC-128 (41_hc128.md R75) -/

/-- One more warm-up step, at the end. -/
theorem warmSteps128_succ (k : Nat) (c : HcCore 9) :
    (List.range (k + 1)).foldl warmStep128 c = warmStep128 ((List.range k).foldl warmStep128 c) k := by
  rw [List.range_succ, List.foldl_append]
  rfl

/-- Everything a warm-up step of table P does. -/
theorem warmStep128_P {c : HcCore 9} {k : Nat} (hk : k < 512) (hi : c.i = BitVec.ofNat 64 k) :
    warmStep128 c k =
      { p := c.p.write (BitVec.ofNat 9 k) (step128 c).1, q := c.q, i := BitVec.ofNat 64 (k + 1) } := by
  have hj : c.i.setWidth 9 = BitVec.ofNat 9 k := by rw [hi]; apply BitVec.eq_of_toNat_eq; simp
  have hs : step128 c = stepP128 c := if_pos ((bit9_eq_false_iff _).2 (by rw [hi]; simp; omega))
  rw [warmStep128, if_pos hk, hs]
  simp only [stepP128, hj, Table.write_write]
  rw [hi, BitVec.ofNat_add _ 1]
  rfl

/-- Everything a warm-up step of table Q does. -/
theorem warmStep128_Q {c : HcCore 9} {k : Nat} (hk : k < 512) (hi : c.i = BitVec.ofNat 64 (512 + k)) :
    warmStep128 c (512 + k) =
      { p := c.p, q := c.q.write (BitVec.ofNat 9 k) (step128 c).1, i := BitVec.ofNat 64 (512 + k + 1) } := by
  have hj : c.i.setWidth 9 = BitVec.ofNat 9 k := by rw [hi]; apply BitVec.eq_of_toNat_eq; simp
  have hs : step128 c = stepQ128 c := if_neg (by rw [bit9_eq_false_iff, hi]; simp; omega)
  rw [warmStep128, if_neg (by omega), hs]
  simp only [stepQ128, hj, Nat.add_sub_cancel_left, Table.write_write]
  rw [hi, BitVec.ofNat_add _ 1]
  rfl

/-- A discarded step (42_hc256.md R90) is a refill whose bytes are not used. -/
theorem afterRefills_refill256 (n : Nat) (c : HcCore 10) :
    afterRefills refill256 n c = (fun c => (step256 c).2)^[n] c := rfl

end Sys2Proof.Machine
end

