-- ==== Sys2Proof/Laws/Keystream.lean ====
section
/-! SUPPORT. The keystream a context will deliver, and how the XOR datapath consumes it (40_datapath.md R59, R61). -/

namespace Sys2Proof.Machine

variable {κ : Type} {B : Nat} (f : κ → Vector Byte B × κ)

/-- The keystream after one refill. -/
theorem keystream_shift (hB : 0 < B) (core : κ) (n : Nat) : keystream f core (B + n) = keystream f (f core).2 n := by
  unfold keystream afterRefills
  rw [show (B + n) / B = n / B + 1 by rw [Nat.add_div_left _ hB], Nat.add_mod_left, Function.iterate_succ_apply]

/-- The byte of R59 is the next upcoming one. -/
theorem Context.nextByte_fst (c : Context κ B) : (c.nextByte f).1 = c.upcoming f 0 := by
  unfold Context.nextByte Context.upcoming
  by_cases h : c.ksn.val = 0
  · rw [Context.refilled_of_zero f h]
    simp [Context.frontByte, h, keystream, afterRefills]
  · have : 0 < c.ksn.val := by omega
    rw [Context.refilled_of_pos f this]
    simp [Context.frontByte, this]

/-- Consuming a byte moves the upcoming keystream on by one. -/
theorem Context.nextByte_snd (hB : 0 < B) (c : Context κ B) (k : Nat) :
    (c.nextByte f).2.upcoming f k = c.upcoming f (k + 1) := by
  unfold Context.nextByte Context.upcoming
  have hle := c.ksn.isLt
  by_cases h : c.ksn.val = 0
  · rw [Context.refilled_of_zero f h]
    simp only [Context.consume_ksn, Context.consume_ksb, Context.consume_core, Fin.val_last, h]
    simp only [Nat.not_lt_zero, if_false, Nat.sub_zero]
    by_cases hk : k < B - 1
    · simp only [hk, if_true]
      simp only [keystream, afterRefills]
      rw [Nat.div_eq_of_lt (by omega), Nat.mod_eq_of_lt (by omega)]
      simp only [Function.iterate_zero, id]
      congr 2; omega
    · simp only [hk, if_false]
      rw [show k + 1 = B + (k - (B - 1)) by omega, keystream_shift f hB]
  · have : 0 < c.ksn.val := by omega
    rw [Context.refilled_of_pos f this]
    simp only [Context.consume_ksn, Context.consume_ksb, Context.consume_core]
    by_cases hk : k + 1 < c.ksn.val
    · have h2 : k < c.ksn.val - 1 := by omega
      simp only [h2, hk, if_true]; congr 2; omega
    · have h2 : ¬ k < c.ksn.val - 1 := by omega
      simp only [h2, hk, if_false]; congr 1; omega

/-- The XOR datapath, byte by byte. -/
theorem Context.xorBytes_getD (hB : 0 < B) (src : List Byte) (c : Context κ B) (k : Nat) (hk : k < src.length) :
    (c.xorBytes f src).1.getD k 0 = src.getD k 0 ^^^ c.upcoming f k := by
  induction src generalizing c k with
  | nil => simp at hk
  | cons b bs ih =>
    rw [Context.xorBytes_cons]
    cases k with
    | zero => simp [Context.nextByte_fst f]
    | succ k =>
      have := ih (c.nextByte f).2 k (by simpa using hk)
      simpa [Context.nextByte_snd f hB] using this

/-- What an XOR leaves of the upcoming keystream. -/
theorem Context.xorBytes_upcoming (hB : 0 < B) (bs : List Byte) (c : Context κ B) (k : Nat) :
    (c.xorBytes f bs).2.upcoming f k = c.upcoming f (bs.length + k) := by
  induction bs generalizing c with
  | nil => simp
  | cons b bs ih =>
    rw [Context.xorBytes_cons]; simp only [ih, List.length_cons, Context.nextByte_snd f hB]; congr 1; omega

end Sys2Proof.Machine
end

