-- ==== Sys2Proof/Laws/PerInstr.lean ====
section
/-! SUPPORT. What holds of every command as syntax, one lemma per constructor: its word matches the row of its own
mnemonic in the opcode map (30_encoding.md R46), whatever its operands. -/

namespace Sys2Proof.Laws.RowPattern

open Sys2Proof

/-- The encoder's word of `i` matches the row of the opcode map that carries i's mnemonic. -/
def Statement (i : Instr) : Prop := ∃ row ∈ opcodeMap, row.mnemonic = i.mnemonic ∧ row.Matches (encode i) = true

theorem initWord_low (e : Engine) (n k v : Nat) :
    ((initWord e n k v) &&& 0xFF00000F#32).toNat = (engineCode e).toNat := by
  have := engineCode_lt e
  have h : (initWord e n k v).toNat = v % 256 * 65536 + k % 256 * 256 + n % 16 * 16 + (engineCode e).toNat := by
    refine (append_toNat (0#8 ++ BitVec.ofNat 8 v ++ BitVec.ofNat 8 k ++ BitVec.ofNat 4 n ++ 0#2) (engineCode e)).trans ?_
    simp only [append_toNat, BitVec.toNat_ofNat]
    omega
  rw [and_maskInit, bits, h]
  omega

theorem xorWord_low (e : Engine) (n l : Nat) :
    ((xorWord e n l) &&& 0x0000000F#32).toNat = 4 + (engineCode e).toNat := by
  have := engineCode_lt e
  have h : (xorWord e n l).toNat = l % 2 ^ 24 * 256 + n % 16 * 16 + 4 + (engineCode e).toNat := by
    refine (append_toNat (BitVec.ofNat 24 l ++ BitVec.ofNat 4 n ++ 1#2) (engineCode e)).trans ?_
    simp only [append_toNat, BitVec.toNat_ofNat]
    omega
  rw [and_maskXor, h]
  omega

theorem releaseWord_low (e : Engine) (n : Nat) :
    ((releaseWord e n) &&& 0xFFFFFF0F#32).toNat = 8 + (engineCode e).toNat := by
  have := engineCode_lt e
  have h : (releaseWord e n).toNat = n % 16 * 16 + 8 + (engineCode e).toNat := by
    refine (append_toNat (0#24 ++ BitVec.ofNat 4 n ++ 2#2) (engineCode e)).trans ?_
    simp only [append_toNat, BitVec.toNat_ofNat]
    omega
  rw [and_maskRelease, bits, h]
  omega

theorem hc128Init (n k v : Nat) : Statement (.hc128Init n k v) :=
  ⟨⟨"HC128.INIT", 0xFF00000F#32, 0#32⟩, by decide, rfl, (OpcodeRow.matches_iff _ _).2 (initWord_low .hc128 n k v)⟩
theorem hc128Xor (n l : Nat) : Statement (.hc128Xor n l) :=
  ⟨⟨"HC128.XOR", 0x0000000F#32, 4#32⟩, by decide, rfl, (OpcodeRow.matches_iff _ _).2 (xorWord_low .hc128 n l)⟩
theorem hc128Release (n : Nat) : Statement (.hc128Release n) :=
  ⟨⟨"HC128.RELEASE", 0xFFFFFF0F#32, 8#32⟩, by decide, rfl, (OpcodeRow.matches_iff _ _).2 (releaseWord_low .hc128 n)⟩
theorem hc256Init (n k v : Nat) : Statement (.hc256Init n k v) :=
  ⟨⟨"HC256.INIT", 0xFF00000F#32, 1#32⟩, by decide, rfl, (OpcodeRow.matches_iff _ _).2 (initWord_low .hc256 n k v)⟩
theorem hc256Xor (n l : Nat) : Statement (.hc256Xor n l) :=
  ⟨⟨"HC256.XOR", 0x0000000F#32, 5#32⟩, by decide, rfl, (OpcodeRow.matches_iff _ _).2 (xorWord_low .hc256 n l)⟩
theorem hc256Release (n : Nat) : Statement (.hc256Release n) :=
  ⟨⟨"HC256.RELEASE", 0xFFFFFF0F#32, 9#32⟩, by decide, rfl, (OpcodeRow.matches_iff _ _).2 (releaseWord_low .hc256 n)⟩
theorem rabbitInit (n k v : Nat) : Statement (.rabbitInit n k v) :=
  ⟨⟨"RABBIT.INIT", 0xFF00000F#32, 2#32⟩, by decide, rfl, (OpcodeRow.matches_iff _ _).2 (initWord_low .rabbit n k v)⟩
theorem rabbitXor (n l : Nat) : Statement (.rabbitXor n l) :=
  ⟨⟨"RABBIT.XOR", 0x0000000F#32, 6#32⟩, by decide, rfl, (OpcodeRow.matches_iff _ _).2 (xorWord_low .rabbit n l)⟩
theorem rabbitRelease (n : Nat) : Statement (.rabbitRelease n) :=
  ⟨⟨"RABBIT.RELEASE", 0xFFFFFF0F#32, 10#32⟩, by decide, rfl, (OpcodeRow.matches_iff _ _).2 (releaseWord_low .rabbit n)⟩

end Sys2Proof.Laws.RowPattern
end

