-- ==== Sys2Proof/Laws/Rabbit.lean ====
section
/-! SUPPORT. The Rabbit engine: one lemma for each shared operation of 43_rabbit.md. -/

namespace Sys2Proof.Machine

/-- The word and the carry out of R99 are the low 32 bits and bit 32 of the exact sum. -/
theorem addCarry_spec (c a : Word) (b : Bool) :
    (addCarry c a b).1.toNat + 2 ^ 32 * (addCarry c a b).2.toNat = c.toNat + a.toNat + b.toNat := by
  have hc := c.isLt
  have ha := a.isLt
  have h : (c.setWidth 64 + a.setWidth 64 + (BitVec.ofBool b).setWidth 64).toNat = c.toNat + a.toNat + b.toNat := by
    cases b <;> simp <;> omega
  have hb := b.toNat_lt
  simp only [addCarry, BitVec.extractLsb'_toNat, h, BitVec.getLsbD, Nat.testBit_eq_decide_div_mod_eq,
    Nat.shiftRight_zero]
  by_cases q : c.toNat + a.toNat + b.toNat < 2 ^ 32
  · have : (c.toNat + a.toNat + b.toNat) / 2 ^ 32 = 0 := by omega
    simp only [this]; simp; omega
  · have : (c.toNat + a.toNat + b.toNat) / 2 ^ 32 = 1 := by omega
    simp only [this]; simp; omega

@[simp] theorem ctrUpdate_x (ctx : RabbitCore) : (ctrUpdate ctx).x = ctx.x := rfl
@[simp] theorem nextState_c (ctx : RabbitCore) : (nextState ctx).c = (ctrUpdate ctx).c := rfl
@[simp] theorem nextState_carry (ctx : RabbitCore) : (nextState ctx).carry = (ctrUpdate ctx).carry := rfl

/-- Four rounds, written out (R102, R103). -/
theorem fourRounds (ctx : RabbitCore) : nextState^[4] ctx = nextState (nextState (nextState (nextState ctx))) := rfl

@[simp] theorem finalizeKey_x (ctx : RabbitCore) : (finalizeKey ctx).x = ctx.x := rfl
@[simp] theorem finalizeKey_carry (ctx : RabbitCore) : (finalizeKey ctx).carry = ctx.carry := rfl
theorem finalizeKey_c (ctx : RabbitCore) (i : Fin 8) :
    (finalizeKey ctx).c[i] = ctx.c[i] ^^^ ctx.x[(i.val + 4) % 8]'(by omega) := by
  have : (i + 4 : Fin 8).val = (i.val + 4) % 8 := by revert i; decide
  simp [finalizeKey, this]

@[simp] theorem mixIv_x (ctx : RabbitCore) (w : Vector Word 4) : (mixIv ctx w).x = ctx.x := rfl
@[simp] theorem mixIv_carry (ctx : RabbitCore) (w : Vector Word 4) : (mixIv ctx w).carry = ctx.carry := rfl
theorem mixIv_c (ctx : RabbitCore) (w : Vector Word 4) (i : Fin 8) :
    (mixIv ctx w).c[i] = ctx.c[i] ^^^ w[i.val % 4]'(by omega) := by
  fin_cases i <;> simp [mixIv]

theorem extractRabbit_getElem (ctx : RabbitCore) (m : Fin 4) :
    (extractRabbit ctx)[m] = ctx.x[2 * m.val]'(by omega) ^^^ (ctx.x[(2 * m.val + 5) % 8]'(by omega) >>> 16)
      ^^^ (ctx.x[(2 * m.val + 3) % 8]'(by omega) <<< 16) := by
  fin_cases m <;> simp [extractRabbit]

theorem serialise_getElem (s : Vector Word 4) (m b : Fin 4) :
    (serialise s)[4 * m.val + b.val]'(by omega) = s[m].extractLsb' (8 * b.val) 8 := by
  fin_cases m <;> fin_cases b <;> simp [serialise, bytesLe]

end Sys2Proof.Machine
end

