-- ==== Sys2Proof/Laws/Run.lean ====
section
/-! SUPPORT. Running a list of commands, one at a time (20_memory.md R36). -/

namespace Sys2Proof.Machine

@[simp] theorem State.runCommands_nil (s : State) : s.runCommands [] = .next { s with requests := [] } := rfl

/-- The first command is answered, then the others run from the state it leaves. -/
theorem State.runCommands_cons {s u : State} {t : Transaction} {ts : List Transaction}
    (h : step { s with requests := .command t :: ts.map Request.command } = .next u)
    (hu : u.requests = ts.map Request.command) : s.runCommands (t :: ts) = u.runCommands ts := by
  have hu' : ({ u with requests := ts.map Request.command } : State) = u := by rw [← hu]
  have hs : Host.Core.step core { s with requests := .command t :: ts.map Request.command } = .next u := h
  unfold State.runCommands
  simp only [List.length_cons, List.map_cons, Host.Core.run]
  rw [hs]
  exact congrArg (Host.Core.run core ts.length) hu'.symm

end Sys2Proof.Machine
end

