-- ==== Sys2Proof/Tests/Slice0.lean ====
section
/-! SUPPORT. Tests of the model. Expected values come from spec/: the words are written out from the patterns of
30_encoding.md R46, the numbers are those of 95_test_vectors.md, or were computed by hand or by a separate script from
the rule a test names. Each obligation with hypotheses has a witness that meets them. -/

namespace Sys2Proof.Tests

-- One test after another: tests that wait for the kernel at once would each hold a thread.
set_option Elab.async false

open Sys2Proof Sys2Proof.Machine

/-! ### States to test on -/

/-- A slot in which each engine holds a cipher (whose fields are the power-on values). -/
def live : Slot :=
  ⟨{ Slot.reset.hc128 with valid := true }, { Slot.reset.hc256 with valid := true }, { Slot.reset.rabbit with valid := true }⟩

/-- A block with these slots and one transaction on its port. -/
def port (slots : List Slot) (cmd : Word) (payload : List Byte) : State := ⟨slots, [.command ⟨cmd, payload⟩], []⟩

/-- The responses an answer leaves, if it is a next state. -/
def seen : Answer → Option (List Response)
  | .next s => some s.responses
  | .fault _ => none
  | .refused _ => none

/-- VALID of the three contexts of slot 0 after an answer. -/
def valids : Answer → Option (List Bool)
  | .next s => (s.slots[0]?).map fun a => [a.hc128.valid, a.hc256.valid, a.rabbit.valid]
  | .fault _ => none
  | .refused _ => none

/-- `n` zero bytes. -/
def zeros (n : Nat) : List Byte := List.replicate n 0#8

/-- The bytes 00 01 … n−1. -/
def count (n : Nat) : List Byte := (List.range n).map (BitVec.ofNat 8)

/-! ### WellFormed: each check refuses an ill-formed term, and its boundary passes -/

theorem test_wellFormed_init_context : (Instr.hc128Init 1 16 16).WellFormed 1 = false := by decide
theorem test_wellFormed_init_field : (Instr.hc256Init 16 32 32).WellFormed 17 = false := by decide
theorem test_wellFormed_init_klen : (Instr.hc256Init 0 256 32).WellFormed 1 = false := by decide
theorem test_wellFormed_init_ivlen : (Instr.rabbitInit 0 16 256).WellFormed 1 = false := by decide
theorem test_wellFormed_xor_context : (Instr.rabbitXor 2 0).WellFormed 2 = false := by decide
theorem test_wellFormed_xor_field : (Instr.hc128Xor 16 0).WellFormed 17 = false := by decide
theorem test_wellFormed_xor_len : (Instr.hc256Xor 0 (2 ^ 24)).WellFormed 1 = false := by decide
theorem test_wellFormed_release_context : (Instr.hc256Release 1).WellFormed 1 = false := by decide
theorem test_wellFormed_release_field : (Instr.rabbitRelease 16).WellFormed 17 = false := by decide
theorem test_wellFormed_boundary : (Instr.rabbitInit 15 255 255).WellFormed 16 = true ∧
    (Instr.hc128Xor 15 (2 ^ 24 - 1)).WellFormed 16 = true ∧ (Instr.hc256Release 0).WellFormed 1 = true := by decide

/-! ### Decode: the words of R46, bit by bit: IVLEN = 0x12, KLEN = 0x34, LEN = 0xABCDEF, CTX = 5 or 9 -/

theorem test_decode_hc128Init :
    decode 16 0b00000000000100100011010001010000#32 = .ok (.hc128Init 5 0x34 0x12) := by rfl
theorem test_decode_hc128Xor :
    decode 16 0b10101011110011011110111110010100#32 = .ok (.hc128Xor 9 0xABCDEF) := by rfl
theorem test_decode_hc128Release : decode 16 0b00000000000000000000000010011000#32 = .ok (.hc128Release 9) := by rfl
theorem test_decode_hc256Init :
    decode 16 0b00000000000100100011010001010001#32 = .ok (.hc256Init 5 0x34 0x12) := by rfl
theorem test_decode_hc256Xor :
    decode 16 0b10101011110011011110111110010101#32 = .ok (.hc256Xor 9 0xABCDEF) := by rfl
theorem test_decode_hc256Release : decode 16 0b00000000000000000000000010011001#32 = .ok (.hc256Release 9) := by rfl
theorem test_decode_rabbitInit :
    decode 16 0b00000000000100100011010001010010#32 = .ok (.rabbitInit 5 0x34 0x12) := by rfl
theorem test_decode_rabbitXor :
    decode 16 0b10101011110011011110111110010110#32 = .ok (.rabbitXor 9 0xABCDEF) := by rfl
theorem test_decode_rabbitRelease : decode 16 0b00000000000000000000000010011010#32 = .ok (.rabbitRelease 9) := by rfl

/-- The five properties of R47, each rejected by name. -/
theorem test_decode_reserved :
    decode 16 0b00000000000000000000000000000111#32 = .error .engine ∧
    decode 16 0b00000000000000000000000000001100#32 = .error .operation ∧
    decode 9 0b00000000000000000000000010010100#32 = .error .context ∧
    decode 16 0b00000001000100000001000000000000#32 = .error .initBits ∧
    decode 16 0b00000000000000000000000100001010#32 = .error .releaseBits := ⟨rfl, rfl, rfl, rfl, rfl⟩

theorem test_decodeTableWord : decodeTableWord 32 0x00101000 = some (.hc128Init 0 16 16) ∧
    decodeTableWord 32 0x0000000A = some (.rabbitRelease 0) ∧ decodeTableWord 32 0x00000003 = none := ⟨rfl, rfl, rfl⟩

/-- The example of R50 runs as the first command after reset: no cipher is there. -/
theorem test_withFetchWord : seen (step (State.reset.withFetchWord 32 0x00000504)) = some [⟨.noContext, []⟩] := by rfl

/-! ### Operations -/

theorem test_bytesLe : bytesLe 0x73150082#32 = #v[0x82#8, 0x00#8, 0x15#8, 0x73#8] := by decide
theorem test_le32 : le32 (count 16) 0 = 0x03020100#32 ∧ le32 (count 16) 12 = 0x0F0E0D0C#32 := by decide
theorem test_plen : plen 0x00FFFF02#32 = 510 ∧ plen 0xFFFFFF04#32 = 2 ^ 24 - 1 ∧ plen 0xFFFFFF08#32 = 0 ∧
    plen 0x0000000C#32 = 0 := by decide
theorem test_statusCodes : [Status.ok, .invalidLength, .noContext, .illegalCommand].map Status.code = [0, 1, 2, 3] := by
  decide

/-- 95_test_vectors.md §2.1. -/
theorem test_f1 : f1 0x12345678#32 = 0xE7FCE6EE#32 ∧ f1 0x80000000#32 = 0x11002000#32 := by decide
theorem test_f2 : f2 0x12345678#32 = 0xA1F78649#32 ∧ f2 0xFFFFFFFF#32 = 0x003FFFFF#32 := by decide
theorem test_g1 : g1 0x12345678#32 0x9ABCDEF0#32 0x0FEDCBA9#32 = 0x362E9BE8#32 := by decide
theorem test_g2 : g2 0x12345678#32 0x9ABCDEF0#32 0x0FEDCBA9#32 = 0xC2BD0747#32 := by decide

/-- 41_hc128.md R73 and 42_hc256.md R88, all-zero key and IV: W[16..19]. -/
theorem test_expansion :
    (let w := expand 4 (load128 (zeros 16) (zeros 16)); [w.getD 16 0, w.getD 17 0, w.getD 18 0, w.getD 19 0]) =
      [0x00000010#32, 0x00000011#32, 0x000A0012#32, 0x000AA013#32] ∧
    (let w := expand 4 (load256 (zeros 32) (zeros 32)); [w.getD 16 0, w.getD 19 0]) = [0x00000010#32, 0x000AA013#32] := by
  decide +kernel

/-- A table of words `d` with a few other words. -/
def sparse (k : Nat) (d : Word) (l : List (Nat × Word)) : Table k :=
  l.foldl (fun t e => t.setIfInBounds e.1 e.2) (Vector.replicate _ d)

/-- HC-128 tables whose words at the positions a step at I = 511 or I = 512 reads differ from the others. -/
def p128 : Table 9 := sparse 9 0x9E3779B9 [(508, 0x12345678), (501, 0x9ABCDEF0), (0, 0x0FEDCBA9), (499, 0x00210043),
  (511, 0x01010101)]
def q128 : Table 9 := sparse 9 0x7F4A7C15 [(0x43, 0x11223344), (0x121, 0x55667788), (509, 0x12345678), (502, 0x9ABCDEF0),
  (1, 0x0FEDCBA9), (500, 0x00210043), (0, 0x01010101)]
def r128 : Table 9 := sparse 9 0x7F4A7C15 [(0x43, 0x11223344), (0x121, 0x55667788)]

/-- 41_hc128.md R77 at the last P step and the first Q step, computed by a separate script. -/
theorem test_step128_P : (step128 ⟨p128, q128, 511⟩).1 = 0x51A73625#32 ∧
    (step128 ⟨p128, q128, 511⟩).2.p.read 511 = 0x372F9CE9#32 ∧ (step128 ⟨p128, q128, 511⟩).2.i = 512 := by decide +kernel
theorem test_step128_Q : (step128 ⟨r128, q128, 512⟩).1 = 0xA536A284#32 ∧
    (step128 ⟨r128, q128, 512⟩).2.q.read 0 = 0xC3BE0848#32 ∧ (step128 ⟨r128, q128, 512⟩).2.i = 513 := by decide +kernel

/-- HC-256 tables for the steps at I = 1023 and I = 1024. -/
def p256 : Table 10 := sparse 10 0x9E3779B9 [(1020, 0x12345678), (1013, 0x9ABCDEF0), (0, 0x0FEDCBA9), (1011, 0x00210043),
  (1023, 0x01010101)]
def q256 : Table 10 := sparse 10 0x7F4A7C15 [(0x43, 0x11223344), (256, 0x0BADF00D), (0x221, 0x55667788), (768, 0x13579BDF),
  (465, 0x2468ACE0), (1021, 0x12345678), (1014, 0x9ABCDEF0), (1, 0x0FEDCBA9), (1012, 0x00210043)]
def r256 : Table 10 := sparse 10 0x7F4A7C15 [(0x43, 0x11223344), (256, 0x0BADF00D), (0x221, 0x55667788),
  (768, 0x13579BDF), (465, 0x2468ACE0)]

/-- 42_hc256.md R92 at the last P step and the first Q step, computed by a separate script. -/
theorem test_step256_P : (step256 ⟨p256, q256, 1023⟩).1 = 0x80345D63#32 ∧
    (step256 ⟨p256, q256, 1023⟩).2.p.read 1023 = 0x05BA6BDB#32 := by decide +kernel
theorem test_step256_Q : (step256 ⟨r256, q256, 1024⟩).1 = 0x018DD057#32 ∧
    (step256 ⟨r256, q256, 1024⟩).2.q.read 0 = 0x8403E6EF#32 := by decide +kernel

/-- 41_hc128.md R75: the warm-up writes the output word back over the updated word. -/
theorem test_warmStep128 : (warmStep128 ⟨r128, q128, 512⟩ 512).q.read 0 = 0xA536A284#32 := by decide +kernel

/-- 41_hc128.md R75: the last P step and the first Q step of the warm-up, in order; Q[500] is such that h2 reads P[511],
which the P step has just warmed. Computed by a separate script. -/
theorem test_warmSteps128 :
    let c := [511, 512].foldl warmStep128 ⟨p128, q128.setIfInBounds 500 0x00FF0043, 511⟩
    c.p.read 511 = 0x51A73625#32 ∧ c.q.read 0 = 0x2C60A796#32 ∧ c.i = 513 := by decide +kernel

/-- 95_test_vectors.md §4.1. -/
theorem test_gRabbit : [gRabbit 0xFFFFFFFF 1, gRabbit 0x0000FFFF 0, gRabbit 0x00010000 0, gRabbit 0x80000000 0,
    gRabbit 0xFFFFFFFF 0, gRabbit 0x12345678 0x9ABCDEF0] =
    [0x00000000#32, 0xFFFE0001#32, 0x00000001#32, 0x40000000#32, 0xFFFFFFFF#32, 0x2C213949#32] := by decide
theorem test_ctrUpdate_allOnes :
    ctrUpdate ⟨Vector.replicate 8 0, Vector.replicate 8 0xFFFFFFFF#32, true⟩ = ⟨Vector.replicate 8 0, rabbitA, true⟩ := by
  decide +kernel
theorem test_ctrUpdate_carry :
    let c : Vector Word 8 := #v[0xB2CB2CB2#32, 0, 0, 0, 0, 0, 0, 0]
    (ctrUpdate ⟨Vector.replicate 8 0, c, true⟩).c[0] = 0x00000000#32 ∧
    (ctrUpdate ⟨Vector.replicate 8 0, c, true⟩).c[1] = 0xD34D34D4#32 ∧
    (ctrUpdate ⟨Vector.replicate 8 0, c, false⟩).c[0] = 0xFFFFFFFF#32 ∧
    (ctrUpdate ⟨Vector.replicate 8 0, c, false⟩).c[1] = 0xD34D34D3#32 := by decide +kernel
theorem test_extractRabbit :
    extractRabbit ⟨#v[0, 0, 0, 0, 0, 0x12345678#32, 0, 0], Vector.replicate 8 0, false⟩ =
      #v[0x00001234#32, 0x56780000#32, 0, 0] := by decide +kernel
theorem test_ivWords : ivWords (count 8) = #v[0x03020100#32, 0x07060302#32, 0x07060504#32, 0x05040100#32] := by
  decide +kernel

/-- 95_test_vectors.md §4.2. -/
theorem test_rabbitLoad : rabbitLoad (count 16) =
    ⟨#v[0x03020100#32, 0x0D0C0B0A#32, 0x07060504#32, 0x01000F0E#32, 0x0B0A0908#32, 0x05040302#32, 0x0F0E0D0C#32,
        0x09080706#32],
      #v[0x09080B0A#32, 0x03020504#32, 0x0D0C0F0E#32, 0x07060908#32, 0x01000302#32, 0x0B0A0D0C#32, 0x05040706#32,
        0x0F0E0100#32], false⟩ := by decide +kernel
theorem test_keySetup : keySetup (zeros 16) =
    ⟨#v[0x6E9E1D18#32, 0xF5A54E5C#32, 0xF8FD49C6#32, 0x9B94253F#32, 0xDCD14A79#32, 0x1F32FA20#32, 0xD2055921#32,
        0x53F371D0#32],
      #v[0xE802074F#32, 0x5206296D#32, 0x01486DF2#32, 0x67203CE4#32, 0x23AACE55#32, 0x26E87A8F#32, 0xCC2E04F2#32,
        0xD6A0F672#32], true⟩ := by decide +kernel

/-! ### Commands, one step each -/

/-- R78: the step's word 0xA536A284 is delivered as 84 A2 36 A5; three bytes of it leave one pending. -/
theorem test_hc128Xor : (match step (port [{ live with hc128 := ⟨true, ⟨r128, q128, 512⟩, Vector.replicate 4 0, 0, 0⟩ }]
      0x00000304#32 [0x00#8, 0xFF#8, 0x00#8]) with
    | .next s => (s.responses, s.slots.map fun a => a.hc128.ksn.val)
    | _ => ([], [])) = ([⟨.ok, [0x84#8, 0x5D#8, 0x36#8]⟩], [1]) := by decide +kernel
theorem test_hc256Xor : seen (step (port [{ live with hc256 := ⟨true, ⟨r256, q256, 1024⟩, Vector.replicate 4 0, 0, 0⟩ }]
    0x00000405#32 (zeros 4))) = some [⟨.ok, [0x57#8, 0xD0#8, 0x8D#8, 0x01#8]⟩] := by decide +kernel

/-- Pending bytes are used first, front byte first, and a refill is not made before it is needed (R59). -/
theorem test_xor_pending : seen (step (port [{ live with hc256 := ⟨true, ⟨r256, q256, 0⟩, #v[1#8, 2#8, 3#8, 4#8], 2, 0⟩ }]
    0x00000205#32 [0x10#8, 0x10#8])) = some [⟨.ok, [0x13#8, 0x14#8]⟩] := by decide +kernel

/-- 95_test_vectors.md §4.4: after INIT with the zero key and no IV, four zero bytes give 02 F7 4A 1C, KSN = 12. -/
theorem test_rabbitXor : (match step (port [{ live with rabbit := ⟨true, keySetup (zeros 16), Vector.replicate 16 0, 0, 0⟩ }]
      0x00000406#32 (zeros 4)) with
    | .next s => (s.responses, s.slots.map fun a => a.rabbit.ksn.val)
    | _ => ([], [])) = ([⟨.ok, [0x02#8, 0xF7#8, 0x4A#8, 0x1C#8]⟩], [12]) := by decide +kernel
theorem test_rabbitInit : (match step (port [Slot.reset] 0x00001002#32 (zeros 16)) with
    | .next s => (s.responses, s.slots.map fun a => (a.rabbit.valid, a.rabbit.core == keySetup (zeros 16)))
    | _ => ([], [])) = ([⟨.ok, []⟩], [(true, true)]) := by decide +kernel
theorem test_rabbitInit_lengths : seen (step (port [live] 0x00041002#32 (zeros 20))) = some [⟨.invalidLength, []⟩] ∧
    valids (step (port [live] 0x00041002#32 (zeros 20))) = some [true, true, true] := by decide +kernel
theorem test_hc128Init_lengths : seen (step (port [Slot.reset] 0x00100F00#32 (zeros 31))) = some [⟨.invalidLength, []⟩] :=
  by decide +kernel
theorem test_hc256Init_lengths : seen (step (port [Slot.reset] 0x00101001#32 (zeros 32))) = some [⟨.invalidLength, []⟩] :=
  by decide +kernel
theorem test_hc128Release : seen (step (port [live] 0x00000008#32 [])) = some [⟨.ok, []⟩] ∧
    valids (step (port [live] 0x00000008#32 [])) = some [false, true, true] := ⟨rfl, rfl⟩
theorem test_hc256Release : seen (step (port [live] 0x00000009#32 [])) = some [⟨.ok, []⟩] ∧
    valids (step (port [live] 0x00000009#32 [])) = some [true, false, true] := ⟨rfl, rfl⟩
theorem test_rabbitRelease : seen (step (port [live] 0x0000000A#32 [])) = some [⟨.ok, []⟩] ∧
    valids (step (port [live] 0x0000000A#32 [])) = some [true, true, false] := ⟨rfl, rfl⟩

/-- 95_test_vectors.md §5: ILLEGAL_COMMAND comes before NO_CONTEXT and before INVALID_LENGTH. -/
theorem test_priority : seen (step (port [Slot.reset] 0x00000314#32 (zeros 3))) = some [⟨.illegalCommand, []⟩] ∧
    seen (step (port [Slot.reset] 0x01101000#32 (zeros 32))) = some [⟨.illegalCommand, []⟩] ∧
    seen (step (port [Slot.reset] 0x00000304#32 (zeros 3))) = some [⟨.noContext, []⟩] := by decide +kernel

/-- A payload of a wrong length is refused (R52), also when a reset finds the transaction in progress (R53); a reset in the
middle of a command gives no response (R124). -/
theorem test_refused : seen (step (port [live] 0x00000304#32 (zeros 2))) = none := by rfl
theorem test_refused_reset : seen (step ⟨[live], [.reset (some ⟨0x00000304#32, zeros 2⟩)], []⟩) = none := by rfl
theorem test_reset : seen (step ⟨[live], [.reset (some ⟨0x00000304#32, zeros 3⟩)], []⟩) = some [] ∧
    valids (step ⟨[live], [.reset (some ⟨0x00000304#32, zeros 3⟩)], []⟩) = some [false, false, false] := ⟨rfl, rfl⟩

/-! ### Witnesses: for each obligation with hypotheses, a state and operands that meet all of them -/

/-- An answer that passes a test is a next state that has the property. -/
theorem exists_next {o : Answer} {P : State → Prop} [DecidablePred P]
    (h : (match o with | .next u => decide (P u) | _ => false) = true) : ∃ u, o = .next u ∧ P u := by
  split at h
  · exact ⟨_, rfl, of_decide_eq_true h⟩
  · cases h

/-- The command of `port`. -/
def cmd (w : Word) (payload : List Byte) : Transaction := ⟨w, payload⟩

theorem witness_DecodeOfEncode : (Instr.hc128Init 15 255 255).WellFormed 16 = true ∧
    (Instr.hc256Xor 0 (2 ^ 24 - 1)).WellFormed 1 = true ∧ (Instr.rabbitRelease 15).WellFormed 16 = true := by decide

theorem witness_EncodeOfDecode : decode 16 0xFFFFFFF6#32 = .ok (.rabbitXor 15 (2 ^ 24 - 1)) := by rfl

theorem witness_LegalWordsMatchExactlyOneRow :
    (decode 1 0x00FFFF02#32 = .ok (.rabbitInit 0 255 255) ∧
      ∃ r ∈ opcodeMap, r.Matches 0x00FFFF02#32 = true ∧ r.mnemonic = "RABBIT.INIT") ∧
    (∃ r ∈ opcodeMap, ∃ r' ∈ opcodeMap, r ≠ r') := by
  refine ⟨⟨rfl, ⟨"RABBIT.INIT", 0xFF00000F#32, 2#32⟩, ?_, ?_, ?_⟩, ⟨"HC128.INIT", 0xFF00000F#32, 0#32⟩, ?_,
    ⟨"HC256.INIT", 0xFF00000F#32, 1#32⟩, ?_, ?_⟩ <;> decide

/-- The three operations, two pairs of different words with equal masked parts, and a legal word. -/
theorem witness_PayloadLength : bits 0x00FFFF02#32 3 2 = 0 ∧ bits 0xFFFFFF04#32 3 2 = 1 ∧
    (bits 0x00000008#32 3 2 ≠ 0 ∧ bits 0x00000008#32 3 2 ≠ 1) ∧ (bits 0xFFFFFFFC#32 3 2 ≠ 0 ∧ bits 0xFFFFFFFC#32 3 2 ≠ 1) ∧
    (0x00101000#32 &&& 0x00FFFF0C#32 = 0xAB1010F3#32 &&& 0x00FFFF0C#32 ∧ bits 0x00101000#32 3 2 ≠ 1) ∧
    0xABCDEF04#32 &&& 0xFFFFFF0C#32 = 0xABCDEFF7#32 &&& 0xFFFFFF0C#32 ∧
    decode 1 0x00000504#32 = .ok (.hc128Xor 0 5) := by decide

theorem witness_StepRunsTheDecodedCommand :
    (port [live] 0x00000304#32 (zeros 3)).requests = .command (cmd 0x00000304#32 (zeros 3)) :: [] ∧
    (cmd 0x00000304#32 (zeros 3)).Admitted ∧
    decode (port [live] 0x00000304#32 (zeros 3)).nctx (cmd 0x00000304#32 (zeros 3)).cmd = .ok (.hc128Xor 0 3) :=
  ⟨rfl, rfl, rfl⟩

/-- One byte too few, and one too many. -/
theorem witness_WrongPayloadLengthIsRefused :
    (port [live] 0x00000304#32 (zeros 2)).requests = .command (cmd 0x00000304#32 (zeros 2)) :: [] ∧
    (cmd 0x00000304#32 (zeros 2)).payload.length ≠ plen (cmd 0x00000304#32 (zeros 2)).cmd ∧
    (cmd 0x00000008#32 (zeros 1)).payload.length ≠ plen (cmd 0x00000008#32 (zeros 1)).cmd := ⟨rfl, by decide, by decide⟩

/-- A word that matches no row, one whose CTX is exactly NCTX, and an INIT with an IV one byte too short. -/
theorem witness_ReservedWordCompletesIllegal :
    ((cmd 0x00000007#32 []).Admitted ∧ ∀ r ∈ opcodeMap, r.Matches 0x00000007#32 = false) ∧
    ((cmd 0x00000314#32 (zeros 3)).Admitted ∧ (port [live] 0x00000314#32 (zeros 3)).nctx ≤ bits 0x00000314#32 7 4) ∧
    ((cmd 0x000F1000#32 (zeros 31)).Admitted ∧ (port [live] 0x000F1000#32 (zeros 31)).requests =
        .command (cmd 0x000F1000#32 (zeros 31)) :: [] ∧
      decode (port [live] 0x000F1000#32 (zeros 31)).nctx 0x000F1000#32 = .ok (Instr.init .hc128 0 16 15) ∧
      ¬ LegalPair .hc128 16 15) :=
  ⟨by decide, by decide, rfl, rfl, rfl, by simp [LegalPair]⟩

theorem witness_AdmittedTransactionAnswersOnce :
    (port [live] 0x00001406#32 (zeros 20)).requests = .command (cmd 0x00001406#32 (zeros 20)) :: [] ∧
    (cmd 0x00001406#32 (zeros 20)).Admitted := ⟨rfl, rfl⟩

/-- A step that answers NO_CONTEXT. -/
theorem witness_ErrorStatusHasNoOtherEffect :
    (∃ u, step (port [Slot.reset] 0x00000008#32 []) = .next u ∧
      u.responses = (port [Slot.reset] 0x00000008#32 []).responses ++ [⟨.noContext, []⟩]) ∧
    (Response.mk .noContext []).status ≠ .ok := ⟨exists_next (by decide +kernel), by decide⟩

/-- Each of the four statuses occurs, on admitted transactions. -/
theorem witness_StatusFollowsThePriority :
    ((cmd 0x01101000#32 (zeros 32)).Admitted ∧ HasStatus (port [live] 0x01101000#32 (zeros 32)) 0x01101000#32 .illegalCommand) ∧
    ((cmd 0x00001000#32 (zeros 16)).Admitted ∧ HasStatus (port [live] 0x00001000#32 (zeros 16)) 0x00001000#32 .invalidLength) ∧
    ((cmd 0x00000008#32 []).Admitted ∧ HasStatus (port [Slot.reset] 0x00000008#32 []) 0x00000008#32 .noContext) ∧
    ((cmd 0x00000004#32 []).Admitted ∧ HasStatus (port [live] 0x00000004#32 []) 0x00000004#32 .ok) :=
  ⟨⟨rfl, .reserved .initBits rfl⟩, ⟨rfl, .lengths .hc128 0 16 0 rfl (by simp [LegalPair])⟩,
    ⟨rfl, .releaseInvalid .hc128 0 Slot.reset rfl rfl rfl⟩, ⟨rfl, .xorOk .hc128 0 0 live rfl rfl rfl⟩⟩

/-- An XOR with status OK; a command that is no XOR; a status other than OK. -/
theorem witness_OnlyAnXorReturnsData :
    (decode 1 0x00000004#32 = .ok (Instr.xor .hc128 0 0) ∧
      ∃ u, step (port [live] 0x00000004#32 []) = .next u ∧ u.responses = [] ++ [⟨.ok, []⟩]) ∧
    ((¬ ∃ e n len, decode 1 0x00000008#32 = .ok (Instr.xor e n len)) ∧
      ∃ u, step (port [live] 0x00000008#32 []) = .next u ∧ u.responses = [] ++ [⟨.ok, []⟩]) ∧
    (∃ u, step (port [Slot.reset] 0x00000008#32 []) = .next u ∧ u.responses = [] ++ [⟨.noContext, []⟩]) := by
  refine ⟨⟨rfl, exists_next (by decide +kernel)⟩, ⟨?_, exists_next (by decide +kernel)⟩, exists_next (by decide +kernel)⟩
  rintro ⟨e, n, len, h⟩
  have : (Except.ok (.hc128Release 0) : Except Illegal Instr) = .ok (Instr.xor e n len) := h
  cases e <;> simp [Instr.xor] at this

theorem witness_IdleBlockHoldsEverything : (State.mk [live] [] []).requests = [] := rfl

/-- Between commands, during one, and during a transaction one byte short. -/
theorem witness_ResetInvalidatesEveryContext :
    ((State.mk [live] [.reset none] []).requests = .reset none :: [] ∧ ∀ t ∈ (none : Option Transaction), t.Admitted) ∧
    ((State.mk [live] [.reset (some (cmd 0x00000304#32 (zeros 3)))] []).requests =
      .reset (some (cmd 0x00000304#32 (zeros 3))) :: [] ∧ (cmd 0x00000304#32 (zeros 3)).Admitted) ∧
    ((State.mk [live] [.reset (some (cmd 0x00000304#32 (zeros 2)))] []).requests =
      .reset (some (cmd 0x00000304#32 (zeros 2))) :: [] ∧ ¬ (cmd 0x00000304#32 (zeros 2)).Admitted) :=
  ⟨⟨rfl, nofun⟩, ⟨rfl, rfl⟩, ⟨rfl, by decide⟩⟩

/-- An XOR, and a RELEASE; behind a reset between commands, and behind one during a command. -/
theorem witness_AfterResetXorAndReleaseReportNoContext :
    ((cmd 0x00000304#32 (zeros 3)).Admitted ∧ decode (State.mk [live] [] []).nctx 0x00000304#32 = .ok (Instr.xor .hc128 0 3)) ∧
    ((cmd 0x0000000A#32 []).Admitted ∧ decode (State.mk [live] [] []).nctx 0x0000000A#32 = .ok (Instr.release .rabbit 0)) ∧
    (∀ t ∈ (none : Option Transaction), t.Admitted) ∧ ∀ t ∈ some (cmd 0x00000304#32 (zeros 3)), t.Admitted :=
  ⟨⟨rfl, rfl⟩, ⟨rfl, rfl⟩, nofun, fun _ h => by cases h; rfl⟩

/-- A state with ciphers in it, B − 1 bytes pending, that meets the invariant and takes a step. -/
theorem witness_EveryStepKeepsTheInvariant :
    let s : State := port [{ live with rabbit := { live.rabbit with ksn := 15 } }] 0x00000009#32 []
    s.Inv ∧ ∃ u, step s = .next u ∧ True := by
  refine ⟨⟨by decide, by decide, ?_, by simp [port]⟩, exists_next (by decide +kernel)⟩
  intro slot h
  simp only [port, List.mem_singleton] at h
  subst h
  simp [live, Slot.reset, Context.reset, Context.Settled]

theorem witness_Hc128InitConstructsTheCipher : (port [live] 0x00101000#32 (zeros 16 ++ zeros 16)).payload? =
    some (zeros 16 ++ zeros 16) ∧ (zeros 16).length = 16 ∧ (port [live] 0x00101000#32 (zeros 16 ++ zeros 16)).slots[0]? = some live :=
  ⟨rfl, rfl, rfl⟩
theorem witness_Hc256InitConstructsTheCipher : (port [live] 0x00202001#32 (zeros 32 ++ zeros 32)).payload? =
    some (zeros 32 ++ zeros 32) ∧ (zeros 32).length = 32 ∧ (port [live] 0x00202001#32 (zeros 32 ++ zeros 32)).slots[0]? = some live :=
  ⟨rfl, rfl, rfl⟩

/-- Without an IV, and with one. -/
theorem witness_RabbitInitConstructsTheCipher :
    ((port [live] 0x00001002#32 (zeros 16 ++ [])).payload? = some (zeros 16 ++ []) ∧
      (zeros 16).length = 16 ∧ ([] : List Byte).length = 0) ∧
    ((port [live] 0x00081002#32 (zeros 16 ++ zeros 8)).payload? = some (zeros 16 ++ zeros 8) ∧ (zeros 8).length = 8) ∧
    (port [live] 0x00081002#32 (zeros 16 ++ zeros 8)).slots[0]? = some live := ⟨⟨rfl, rfl, rfl⟩, ⟨rfl, rfl⟩, rfl⟩

/-- Lengths one byte away from a legal pair, for each engine, with a payload of that length. -/
theorem witness_InitWithOtherLengthsFailsWhole :
    ((port [live] 0x000F1000#32 (zeros 31)).payload? = some (zeros 31) ∧ (zeros 31).length = 16 + 15 ∧
      ¬ LegalPair .hc128 16 15) ∧
    ((port [live] 0x001F2001#32 (zeros 63)).payload? = some (zeros 63) ∧ (zeros 63).length = 32 + 31 ∧
      ¬ LegalPair .hc256 32 31) ∧
    ((port [live] 0x00071002#32 (zeros 23)).payload? = some (zeros 23) ∧ (zeros 23).length = 16 + 7 ∧
      ¬ LegalPair .rabbit 16 7) ∧
    (port [live] 0x00071002#32 (zeros 23)).slots[0]? = some live :=
  ⟨⟨rfl, rfl, by simp [LegalPair]⟩, ⟨rfl, rfl, by simp [LegalPair]⟩, ⟨rfl, rfl, by simp [LegalPair]⟩, rfl⟩

/-- For the three XOR statements, and the empty XOR: a valid context of each engine, and a payload. -/
theorem witness_XorStreamsTheKeystream :
    (port [live] 0x00000304#32 (zeros 3)).payload? = some (zeros 3) ∧
    (port [live] 0x00000004#32 []).payload? = some [] ∧
    (port [live] 0x00000304#32 (zeros 3)).slots[0]? = some live ∧
    live.hc128.valid = true ∧ live.hc256.valid = true ∧ live.rabbit.valid = true := ⟨rfl, rfl, rfl, rfl, rfl, rfl⟩

/-- RELEASE and XOR: valid contexts, and invalid ones. -/
theorem witness_ReleaseDestroysOnlyItsCipher : (port [live, Slot.reset] 0x00000008#32 []).payload? = some [] ∧
    (port [live, Slot.reset] 0x00000008#32 []).slots[0]? = some live ∧ live.hc128.valid = true ∧ live.hc256.valid = true ∧
    live.rabbit.valid = true ∧ (port [live, Slot.reset] 0x00000008#32 []).slots[1]? = some Slot.reset ∧
    Slot.reset.hc128.valid = false ∧ Slot.reset.hc256.valid = false ∧ Slot.reset.rabbit.valid = false :=
  ⟨rfl, rfl, rfl, rfl, rfl, rfl, rfl, rfl, rfl⟩
theorem witness_XorNeedsACipher : (port [Slot.reset] 0x00000304#32 (zeros 3)).payload? = some (zeros 3) ∧
    (port [Slot.reset] 0x00000304#32 (zeros 3)).slots[0]? = some Slot.reset ∧ Slot.reset.hc128.valid = false ∧
    Slot.reset.hc256.valid = false ∧ Slot.reset.rabbit.valid = false := ⟨rfl, rfl, rfl, rfl, rfl⟩

/-- The first context index that does not exist. -/
theorem witness_MissingContextIsIllegal : (port [live] 0x00000314#32 (zeros 3)).payload? = some (zeros 3) ∧
    (zeros 3).length = (Instr.hc128Xor 1 3).payloadLength ∧
    (port [live] 0x00000314#32 (zeros 3)).nctx ≤ (Instr.hc128Xor 1 3).ctx := ⟨rfl, rfl, by decide⟩

/-- One command of three bytes, and three commands of 1, 0 and 2 bytes. -/
theorem witness_ChunkingIsInvisible : (State.mk [live] [] []).slots[0]? = some live ∧ live.validOf .rabbit = true ∧
    [zeros 3].flatten = [zeros 1, [], zeros 2].flatten ∧ (∀ a ∈ [zeros 3], a.length < 2 ^ 24) ∧
    (∀ b ∈ [zeros 1, [], zeros 2], b.length < 2 ^ 24) := ⟨rfl, rfl, rfl, by decide, by decide⟩

/-- Every engine with legal lengths (Rabbit without and with an IV), two chunks, and NCTX = 1. -/
theorem witness_KeystreamLaw : 0 < (State.mk [live] [] []).nctx ∧ LegalPair .hc128 (zeros 16).length (zeros 16).length ∧
    LegalPair .hc256 (zeros 32).length (zeros 32).length ∧ LegalPair .rabbit (zeros 16).length ([] : List Byte).length ∧
    LegalPair .rabbit (zeros 16).length (zeros 8).length ∧ (∀ a ∈ [zeros 1, zeros 15], a.length < 2 ^ 24) ∧
    (zeros 17).length < 2 ^ 24 := ⟨by decide, rfl, rfl, .inl rfl, .inr rfl, by decide, by decide⟩

theorem witness_XorIsSelfInverse : 0 < (State.mk [live] [] []).nctx ∧ 1 < (State.mk [live, Slot.reset] [] []).nctx ∧
    LegalPair .hc256 (zeros 32).length (zeros 32).length ∧ (zeros 3).length < 2 ^ 24 ∧
    (count 3).length = (zeros 3).length ∧ (count 8).length < 2 ^ 24 :=
  ⟨by decide, by decide, rfl, by decide, by decide, by decide⟩

theorem witness_XornPiecesCoverTheBytes : (State.mk [Slot.reset, live] [] []).slots[1]? = some live ∧
    live.validOf .hc128 = true ∧ live.validOf .hc256 = true ∧ live.validOf .rabbit = true := ⟨rfl, rfl, rfl, rfl⟩

/-- Two states that agree on the HC-128 context of slot 0 only, and a step of each. -/
theorem witness_CommandReadsAndWritesOnlyItsContext :
    let s := port [live, Slot.reset] 0x00000008#32 []
    let s' := port [{ Slot.reset with hc128 := live.hc128 }, live] 0x00000008#32 []
    s.requests = .command (cmd 0x00000008#32 []) :: [] ∧ s'.requests = .command (cmd 0x00000008#32 []) :: [] ∧
    s.nctx = s'.nctx ∧ decode s.nctx 0x00000008#32 = .ok (.hc128Release 0) ∧ State.AgreeOn .hc128 0 s s' ∧
    (∃ u, step s = .next u ∧ True) ∧ (∃ u', step s' = .next u' ∧ True) :=
  ⟨rfl, rfl, rfl, rfl, .some rfl, exists_next (by decide +kernel), exists_next (by decide +kernel)⟩

/-- An idle step, a reset, an INIT and a RELEASE with status OK, a status other than OK, and another command: each leaves
slot 0 in place. -/
theorem witness_OnlyInitReleaseAndResetWriteValid :
    (∃ u, step ⟨[live], [], []⟩ = .next u ∧ u.slots.length = 1) ∧
    (∃ u, step ⟨[live], [.reset none], []⟩ = .next u ∧ u.slots.length = 1) ∧
    (decode 1 0x00001002#32 = .ok (Instr.init .rabbit 0 16 0) ∧ ∃ u, step (port [Slot.reset] 0x00001002#32 (zeros 16)) =
      .next u ∧ u.slots.length = 1 ∧ u.responses = [] ++ [⟨.ok, []⟩]) ∧
    (decode 1 0x0000000A#32 = .ok (Instr.release .rabbit 0) ∧ ∃ u, step (port [live] 0x0000000A#32 []) = .next u ∧
      u.slots.length = 1 ∧ u.responses = [] ++ [⟨.ok, []⟩]) ∧
    (∃ u, step (port [Slot.reset] 0x0000000A#32 []) = .next u ∧ u.slots.length = 1 ∧
      u.responses = [] ++ [⟨.noContext, []⟩]) ∧
    (decode 1 0x00000006#32 = .ok (Instr.xor .rabbit 0 0) ∧ ∃ u, step (port [live] 0x00000006#32 []) = .next u ∧
      u.slots.length = 1 ∧ u.responses = [] ++ [⟨.ok, []⟩]) := by
  refine ⟨?_, ?_, ⟨rfl, ?_⟩, ⟨rfl, ?_⟩, ?_, ⟨rfl, ?_⟩⟩ <;> exact exists_next (by decide +kernel)

/-- Two engines on one index, and one engine on two indexes. -/
theorem witness_CommandsToDifferentContextsCommute :
    ((cmd 0x00000304#32 (zeros 3)).Admitted ∧ (cmd 0x00000306#32 (zeros 3)).Admitted ∧
      decode (State.mk [live] [] []).nctx 0x00000304#32 = .ok (.hc128Xor 0 3) ∧
      decode (State.mk [live] [] []).nctx 0x00000306#32 = .ok (.rabbitXor 0 3) ∧
      ((Instr.hc128Xor 0 3).engine, (Instr.hc128Xor 0 3).ctx) ≠ ((Instr.rabbitXor 0 3).engine, (Instr.rabbitXor 0 3).ctx)) ∧
    ((cmd 0x00000314#32 (zeros 3)).Admitted ∧
      decode (State.mk [live, live] [] []).nctx 0x00000314#32 = .ok (.hc128Xor 1 3) ∧
      ((Instr.hc128Xor 0 3).engine, (Instr.hc128Xor 0 3).ctx) ≠ ((Instr.hc128Xor 1 3).engine, (Instr.hc128Xor 1 3).ctx)) :=
  ⟨⟨rfl, rfl, rfl, rfl, by decide⟩, ⟨rfl, rfl, by decide⟩⟩

/-- Two different states that differ in an invalid context and in consumed bytes of KSB only, and a step of one. -/
theorem witness_HiddenFieldsAreNeverObserved :
    let s := port [{ live with hc128 := { live.hc128 with valid := false } }] 0x0000000A#32 []
    let t := port [{ live with hc128 := { live.hc128 with valid := false, epoch := 7 },
                               rabbit := { live.rabbit with ksb := Vector.replicate 16 1#8 } }] 0x0000000A#32 []
    s ≠ t ∧ s.Alike t ∧ ∃ u, step s = .next u := by
  refine ⟨fun h => ?_, ⟨.cons ⟨⟨rfl, by simp⟩, ⟨rfl, fun _ => ⟨rfl, rfl, rfl⟩⟩, ⟨rfl, fun _ => ⟨rfl, rfl, ?_⟩⟩⟩ .nil, rfl, rfl⟩, _, rfl⟩
  · have := congrArg (fun s : State => s.slots.map fun a => a.hc128.epoch) h
    simp [port, live, Slot.reset, Context.reset] at this
  · decide

/-- The ranges of the two expansions and of the tables have values at both ends. -/
theorem witness_ExpansionFillsTheTables : 7 < 8 ∧ (16 ≤ 16 ∧ 16 < 1280) ∧ (16 ≤ 1279 ∧ 1279 < 1280) ∧ 511 < 512 ∧
    (16 ≤ 2559 ∧ 2559 < 2560) ∧ 1023 < 1024 := by decide

/-- The last step of each table and the first of the other, for both engines. -/
theorem witness_StepUpdatesOneWord :
    (511#64).toNat % 1024 < 512 ∧ 512 ≤ (512#64).toNat % 1024 ∧ 512 ≤ (1023#64).toNat % 1024 ∧
    (1024#64).toNat % 1024 < 512 ∧ (1023#64).toNat % 2048 < 1024 ∧ 1024 ≤ (1024#64).toNat % 2048 := by decide

/-- The first and the last position of each table in the warm-up. -/
theorem witness_Hc128WarmupWritesTheOutputBack : (0 < 512 ∧ (511 < 512)) ∧
    (HcCore.mk p128 q128 (BitVec.ofNat 64 511)).i = BitVec.ofNat 64 511 ∧
    (HcCore.mk p128 q128 (BitVec.ofNat 64 (512 + 511))).i = BitVec.ofNat 64 (512 + 511) := ⟨by decide, rfl, rfl⟩

/-- The first and the last position of each table, in the loop of the warm-up and in its published form. -/
theorem witness_Hc128SetupEndsAtCounterZero : 0 < 512 ∧ 511 < 512 := by decide

theorem witness_Hc128WarmupTakesThePublishedForm : 0 < 512 ∧ 511 < 512 := by decide

/-- Different counters that are equal modulo the period: at the wrap of 2^64 too. -/
theorem witness_HcCounterIsReadModuloThePeriod : (0#64).toNat % 1024 = (1024#64).toNat % 1024 ∧
    (0xFFFFFFFFFFFFFFFF#64).toNat % 2048 = (2047#64).toNat % 2048 := by decide

theorem witness_HcFunctionsRotateCircularly : (0 < 1 ∧ 1 < 32 ∧ 0 < 32) ∧ (0 < 31 ∧ 31 < 32 ∧ 31 < 32) ∧ 3 < 4 := by decide

/-- An even and an odd index of the round, and the last counter word. -/
theorem witness_RabbitRoundFollowsTheEquations : (0 : Fin 8).val % 2 = 0 ∧ (7 : Fin 8).val % 2 = 1 ∧ 7 < 8 := by decide

end Sys2Proof.Tests
end

/-! Proofs about the invariant of every step (00_scope.md R6, 10_state.md R17, 40_datapath.md R55) and the reset state
(70_reset_and_hazards.md R124). -/

namespace Sys2Proof.Machine

section Contexts

variable {κ : Type} {B : Nat}

/-! What a command that ends with OK makes of its context -/

/-- The contexts a command of engine `E` on index `n` can write over the context `c`: by INIT (40_datapath.md R57), by
XOR (R58, R59), by RELEASE (R60). -/
inductive EngineOps.Writes (E : EngineOps κ B) (n : Nat) (c : Context κ B) : Context κ B → Prop where
  | constructed (key iv : List Byte) : E.Writes n c (E.constructed n c key iv)
  | advanced (input : List Byte) (hv : c.valid = true) : E.Writes n c (c.xorBytes E.refill input).2
  | destroyed (hv : c.valid = true) : E.Writes n c (E.destroyed n c)

/-- `OneContextAnswer` with the context that is written: an error status changes no context, and OK writes over the
named one what INIT, XOR or RELEASE makes of it. -/
def WrittenAnswer (E : EngineOps κ B) (n : Nat) (s u : State) : Prop :=
  (∃ st, st ≠ .ok ∧ u = s.respond st []) ∨
    ∃ slot d data, s.slots[n]? = some slot ∧ E.Writes n (E.get slot) d ∧
      u = (s.putSlot n (E.put d slot)).respond .ok data

theorem WrittenAnswer.of_raise {E : EngineOps κ B} {n : Nat} {s u : State} {st : Status} (hst : st ≠ .ok)
    (h : raise st s = .next u) : WrittenAnswer E n s u := by
  cases h
  exact .inl ⟨st, hst, rfl⟩

theorem WrittenAnswer.of_write {E : EngineOps κ B} {n : Nat} {s u : State} {slot : Slot} {d : Context κ B}
    {data : List Byte} (hs : s.slots[n]? = some slot) (hd : E.Writes n (E.get slot) d)
    (h : .next ((s.putSlot n (E.put d slot)).respond .ok data) = (.next u : Answer)) : WrittenAnswer E n s u := by
  cases h
  exact .inr ⟨slot, d, data, hs, hd, rfl⟩

/-- On a context that does not exist the answer is an error status, so only the command's own rule matters. -/
theorem WrittenAnswer.of_onSlot {E : EngineOps κ B} {len n : Nat} {s u : State} {body : List Byte → Slot → Answer}
    (h : onSlot len n s body = .next u)
    (hbody : ∀ p slot, s.slots[n]? = some slot → body p slot = .next u → WrittenAnswer E n s u) :
    WrittenAnswer E n s u := by
  obtain ⟨p, -, -, ⟨-, rfl⟩ | ⟨slot, hs, hb⟩⟩ := onSlot_cases h
  · exact .of_raise (st := .illegalCommand) (by decide) rfl
  · exact hbody p slot hs hb

theorem initGeneric_writes {E : EngineOps κ B} {n klen ivlen : Nat} {s u : State}
    (h : initGeneric E n klen ivlen s = .next u) : WrittenAnswer E n s u := by
  refine .of_onSlot h fun p slot hs hb => ?_
  split at hb
  · exact .of_write hs (.constructed _ _) hb
  · exact .of_raise (by decide) hb

theorem xorGeneric_writes {E : EngineOps κ B} {n len : Nat} {s u : State}
    (h : xorGeneric E n len s = .next u) : WrittenAnswer E n s u := by
  refine .of_onSlot h fun p slot hs hb => ?_
  split at hb
  next hv => exact .of_write hs (.advanced _ hv) hb
  · exact .of_raise (by decide) hb

theorem releaseGeneric_writes {E : EngineOps κ B} {n : Nat} {s u : State}
    (h : releaseGeneric E n s = .next u) : WrittenAnswer E n s u := by
  refine .of_onSlot h fun p slot hs hb => ?_
  split at hb
  next hv => exact .of_write hs (.destroyed hv) hb
  · exact .of_raise (by decide) hb

/-! KSN stays below B (10_state.md R17) -/

theorem Context.settled_of_invalid {c : Context κ B} (h : c.valid = false) : c.Settled := by
  simp [Context.Settled, h]

/-- The datapath leaves fewer than a block pending: this is the induction over the bytes in `xorBytes_ksn_lt`. -/
theorem Context.Settled.xorBytes (hB : 0 < B) {c : Context κ B} (h : c.Settled) (f : κ → Vector Byte B × κ)
    (input : List Byte) : (c.xorBytes f input).2.Settled := fun hv =>
  Context.xorBytes_ksn_lt hB f input c (h (by simpa using hv))

theorem EngineOps.Writes.settled (hB : 0 < B) {E : EngineOps κ B} {n : Nat} {c d : Context κ B}
    (hw : E.Writes n c d) (hc : c.Settled) : d.Settled := by
  cases hw with
  | constructed key iv => exact fun _ => by simpa using hB
  | advanced input _ => exact hc.xorBytes hB E.refill input
  | destroyed _ => exact Context.settled_of_invalid (E.destroyed_valid n c)

/-- The invariant of one slot: each of its three contexts is settled. -/
def Slot.Settled (a : Slot) : Prop := a.hc128.Settled ∧ a.hc256.Settled ∧ a.rabbit.Settled

theorem Slot.settled_of_invalid {a : Slot} (h : ∀ e, a.validOf e = false) : a.Settled :=
  ⟨Context.settled_of_invalid (h .hc128), Context.settled_of_invalid (h .hc256),
    Context.settled_of_invalid (h .rabbit)⟩

theorem EngineOps.Models.get_settled {e : Engine} {E : EngineOps κ B} (hE : E.Models e) {a : Slot} (h : a.Settled) :
    (E.get a).Settled := hE.rel_get (fun c _ => c.Settled) a a h

theorem EngineOps.Models.put_settled {e : Engine} {E : EngineOps κ B} (hE : E.Models e) {a : Slot}
    {c : Context κ B} (h : a.Settled) (hc : c.Settled) : (E.put c a).Settled :=
  hE.rel_put (fun c _ => c.Settled) a a c c h hc

end Contexts

/-! What a step can do -/

theorem exec_writes {i : Instr} {s u : State} (h : exec i s = .next u) :
    ∃ (κ : Type) (B : Nat) (E : EngineOps κ B), E.Models i.engine ∧ WrittenAnswer E i.ctx s u := by
  obtain ⟨e, n, k, v, rfl⟩ | ⟨e, n, l, rfl⟩ | ⟨e, n, rfl⟩ := instr_cases i <;>
    obtain ⟨κ, B, E, hE⟩ := exists_models e
  · rw [hE.init_eq] at h
    exact ⟨κ, B, E, by simpa using hE, by simpa using initGeneric_writes h⟩
  · rw [hE.xor_eq] at h
    exact ⟨κ, B, E, by simpa using hE, by simpa using xorGeneric_writes h⟩
  · rw [hE.release_eq] at h
    exact ⟨κ, B, E, by simpa using hE, by simpa using releaseGeneric_writes h⟩

/-- Everything a step can do when it answers a next state: stay idle (60_exceptions.md R123), reset (R124), or answer
a command (R54). -/
theorem step_cases {s u : State} (h : step s = .next u) :
    (s.requests = [] ∧ u = s) ∨
    (∃ inProgress rest, s.requests = .reset inProgress :: rest ∧ (∀ t ∈ inProgress, t.Admitted) ∧ u = hostReset s) ∨
    ∃ t rest, s.requests = .command t :: rest ∧ execute t s = .next u := by
  match hr : s.requests with
  | [] =>
    simp only [step, hr] at h
    cases h
    exact .inl ⟨rfl, rfl⟩
  | .reset inProgress :: rest =>
    rw [step_of_reset hr] at h
    exact .inr (.inl ⟨inProgress, rest, rfl, executeReset_cases h⟩)
  | .command t :: rest =>
    rw [step_of_command hr] at h
    exact .inr (.inr ⟨t, rest, rfl, h⟩)

/-! The contexts after reset (70_reset_and_hazards.md R124) -/

@[simp] theorem Slot.reset_validOf (e : Engine) : Slot.reset.validOf e = false := by cases e <;> rfl

@[simp] theorem Slot.destroyed_validOf (n : Nat) (a : Slot) (e : Engine) : (a.destroyed n).validOf e = false := by
  cases e <;> rfl

theorem State.resetWith_allInvalid (nctx : Nat) : (State.resetWith nctx).AllInvalid := by
  intro slot hslot e
  rw [List.eq_of_mem_replicate hslot, Slot.reset_validOf]

theorem hostReset_allInvalid (s : State) : (hostReset s).AllInvalid := by
  intro slot hslot e
  obtain ⟨n, hn, rfl⟩ := List.mem_mapIdx.1 hslot
  exact Slot.destroyed_validOf n _ e

@[simp] theorem State.reset_nctx : State.reset.nctx = Config.nctx := State.resetWith_nctx _

/-! What keeps the invariant -/

theorem State.Inv.slot_settled {s : State} (h : s.Inv) {n : Nat} {a : Slot} (ha : s.slots[n]? = some a) :
    a.Settled := by
  obtain ⟨-, -, hslots, -⟩ := h
  exact hslots a (List.mem_of_getElem? ha)

theorem State.Inv.respond {s : State} (h : s.Inv) {st : Status} {data : List Byte} (hd : st ≠ .ok → data = []) :
    (s.respond st data).Inv := by
  obtain ⟨hpos, hle, hslots, hresp⟩ := h
  refine ⟨hpos, hle, hslots, fun r hr => ?_⟩
  obtain hr | hr := List.mem_append.1 hr
  · exact hresp r hr
  · obtain rfl := List.mem_singleton.1 hr
    exact hd

theorem State.Inv.putSlot {s : State} (h : s.Inv) {n : Nat} {a : Slot} (ha : a.Settled) : (s.putSlot n a).Inv := by
  obtain ⟨hpos, hle, hslots, hresp⟩ := h
  refine ⟨by simpa using hpos, by simpa using hle, fun slot hslot => ?_, hresp⟩
  obtain hslot | rfl := List.mem_or_eq_of_mem_set hslot
  · exact hslots slot hslot
  · exact ha

theorem State.Inv.hostReset {s : State} (h : s.Inv) : (hostReset s).Inv := by
  obtain ⟨hpos, hle, -, hresp⟩ := h
  exact ⟨by simpa using hpos, by simpa using hle,
    fun slot hslot => Slot.settled_of_invalid (hostReset_allInvalid s slot hslot), hresp⟩

theorem State.Inv.exec {i : Instr} {s u : State} (h : s.Inv) (hu : exec i s = .next u) : u.Inv := by
  obtain ⟨κ, B, E, hE, ⟨st, hst, rfl⟩ | ⟨slot, d, data, hs, hw, rfl⟩⟩ := exec_writes hu
  · exact h.respond fun _ => rfl
  · have hslot : slot.Settled := h.slot_settled hs
    have hd : d.Settled := hw.settled hE.block_pos (hE.get_settled hslot)
    exact (h.putSlot (hE.put_settled hslot hd)).respond fun hok => absurd rfl hok

theorem State.Inv.execute {t : Transaction} {s u : State} (h : s.Inv) (hu : execute t s = .next u) : u.Inv := by
  obtain ⟨-, ⟨why, -, rfl⟩ | ⟨i, -, hi⟩⟩ := execute_cases hu
  · exact h.respond fun _ => rfl
  · exact h.exec hi

/-! The obligations -/

/-- Settles O20, by the three things a step can do; XOR is the case that needs an induction, over the bytes. -/
theorem everyStepKeepsTheInvariant : Obligations.EveryStepKeepsTheInvariant := by
  intro s u hinv hstep
  obtain ⟨-, rfl⟩ | ⟨_, _, -, -, rfl⟩ | ⟨t, _, -, hu⟩ := step_cases hstep
  · exact hinv
  · exact hinv.hostReset
  · exact hinv.execute hu

/-- Settles O17, whatever NCTX the block has (00_scope.md R6). -/
theorem resetStateIsIdleAndInvalid : Obligations.ResetStateIsIdleAndInvalid := by
  refine ⟨State.resetWith_allInvalid _, rfl, rfl, ?_, ?_⟩ <;> rw [State.reset_nctx]
  · exact Config.nctx_pos
  · exact Config.nctx_le

/-- Settles O19: no context holds a cipher after reset, and no response has been given. -/
theorem resetStateMeetsTheInvariant : Obligations.ResetStateMeetsTheInvariant := by
  obtain ⟨hinvalid, -, hresp, hpos, hle⟩ := resetStateIsIdleAndInvalid
  refine ⟨hpos, hle, fun slot hslot => Slot.settled_of_invalid (hinvalid slot hslot), ?_⟩
  simp [hresp]

end Sys2Proof.Machine

/-! Proofs about the HC step counter (10_state.md R18). -/

namespace Sys2Proof.Machine

section Counter

variable {k : Nat}

/-- The table selector and the position of an HC step are the low bits of I. -/
theorem selector_and_position_eq_of_mod {i i' : BitVec 64} (h : i.toNat % 2 ^ (k + 1) = i'.toNat % 2 ^ (k + 1)) :
    i.getLsbD k = i'.getLsbD k ∧ (i.setWidth k : BitVec k) = i'.setWidth k := by
  have hlow : (i.setWidth (k + 1) : BitVec (k + 1)) = i'.setWidth (k + 1) := BitVec.eq_of_toNat_eq (by simpa using h)
  constructor
  · simpa using congrArg (·.getLsbD k) hlow
  · simpa using congrArg (·.setWidth k) hlow

/-- An engine whose refill counts one step counts `r` steps in `r` refills. -/
theorem afterRefills_i {f : HcCore k → Vector Byte 4 × HcCore k} (hf : ∀ c, (f c).2.i = c.i + 1) (r : Nat)
    (c : HcCore k) : (afterRefills f r c).i = c.i + BitVec.ofNat 64 r := by
  induction r with
  | zero => simp [afterRefills]
  | succ r ih =>
    have hsucc : afterRefills f (r + 1) c = (f (afterRefills f r c)).2 := Function.iterate_succ_apply' ..
    rw [hsucc, hf, ih, BitVec.ofNat_add, BitVec.add_assoc]
    rfl

end Counter

theorem step128_eq_of_mod (p q : Table 9) {i i' : BitVec 64} (h : i.toNat % 1024 = i'.toNat % 1024) :
    (step128 ⟨p, q, i⟩).1 = (step128 ⟨p, q, i'⟩).1 ∧ (step128 ⟨p, q, i⟩).2.p = (step128 ⟨p, q, i'⟩).2.p ∧
      (step128 ⟨p, q, i⟩).2.q = (step128 ⟨p, q, i'⟩).2.q := by
  obtain ⟨hbit, hpos⟩ := selector_and_position_eq_of_mod (k := 9) h
  unfold step128
  rw [hbit]
  split
  · simp only [stepP128, HcCore.h1, hpos, and_self]
  · simp only [stepQ128, HcCore.h2, hpos, and_self]

theorem step256_eq_of_mod (p q : Table 10) {i i' : BitVec 64} (h : i.toNat % 2048 = i'.toNat % 2048) :
    (step256 ⟨p, q, i⟩).1 = (step256 ⟨p, q, i'⟩).1 ∧ (step256 ⟨p, q, i⟩).2.p = (step256 ⟨p, q, i'⟩).2.p ∧
      (step256 ⟨p, q, i⟩).2.q = (step256 ⟨p, q, i'⟩).2.q := by
  obtain ⟨hbit, hpos⟩ := selector_and_position_eq_of_mod (k := 10) h
  unfold step256
  rw [hbit]
  split
  · simp only [stepP256, HcCore.g1, HcCore.h1w, hpos, and_self]
  · simp only [stepQ256, HcCore.g2, HcCore.h2w, hpos, and_self]

/-- Settles O44: a step uses I only to select a table and a position, and both are its low bits. -/
theorem hcCounterIsReadModuloThePeriod : Obligations.HcCounterIsReadModuloThePeriod :=
  ⟨fun p q _ _ h => step128_eq_of_mod p q h, fun p q _ _ h => step256_eq_of_mod p q h⟩

/-- Settles O45, by induction on the number of refills; setup ends with I = 0. -/
theorem hcCounterCountsRefills : Obligations.HcCounterCountsRefills :=
  ⟨fun _ _ => ⟨rfl, rfl⟩, afterRefills_i step128_i, afterRefills_i step256_i⟩

end Sys2Proof.Machine

/-! What a command makes of the one context it names (10_state.md R12, R13), and what of a context the host can observe
(R25, 70_reset_and_hazards.md R124). -/

namespace Sys2Proof.Machine

section Effects

variable {κ : Type} {B : Nat}

/-! The effect of a command on its context -/

/-- What the command `i` of engine `E` makes of its payload and of the context it names: the context it leaves, and its
response (40_datapath.md R57, R58, R60). `step_command` ties it to `step`. -/
def EngineOps.effect (E : EngineOps κ B) (i : Instr) (p : List Byte) (c : Context κ B) : Context κ B × Response :=
  match i with
  | .hc128Init n k v | .hc256Init n k v | .rabbitInit n k v =>
    if legalLengths E.engine k v then (E.constructed n c (memRead p 0 k) (memRead p k v), ⟨.ok, []⟩)
    else (c, ⟨.invalidLength, []⟩)
  | .hc128Xor _ _ | .hc256Xor _ _ | .rabbitXor _ _ =>
    if c.valid then ((c.xorBytes E.refill p).2, ⟨.ok, (c.xorBytes E.refill p).1⟩) else (c, ⟨.noContext, []⟩)
  | .hc128Release n | .hc256Release n | .rabbitRelease n =>
    if c.valid then (E.destroyed n c, ⟨.ok, []⟩) else (c, ⟨.noContext, []⟩)

/-- `s` after a command that left the context `x.1` in `slot`, the one of index `n`, and responded `x.2`. -/
def EngineOps.answered (E : EngineOps κ B) (n : Nat) (slot : Slot) (x : Context κ B × Response) (s : State) : State :=
  (s.putSlot n (E.put x.1 slot)).respond x.2.status x.2.data

@[simp] theorem EngineOps.answered_slots (E : EngineOps κ B) (n : Nat) (slot : Slot) (x : Context κ B × Response)
    (s : State) : (E.answered n slot x s).slots = s.slots.set n (E.put x.1 slot) := rfl
@[simp] theorem EngineOps.answered_requests (E : EngineOps κ B) (n : Nat) (slot : Slot) (x : Context κ B × Response)
    (s : State) : (E.answered n slot x s).requests = s.requests.tail := rfl
@[simp] theorem EngineOps.answered_responses (E : EngineOps κ B) (n : Nat) (slot : Slot) (x : Context κ B × Response)
    (s : State) : (E.answered n slot x s).responses = s.responses ++ [x.2] := rfl

/-- A command that leaves its context as it was only responds. -/
theorem EngineOps.Models.answered_self {e : Engine} {E : EngineOps κ B} (hE : E.Models e) {s : State} {n : Nat}
    {slot : Slot} (hs : s.slots[n]? = some slot) (r : Response) :
    E.answered n slot (E.get slot, r) s = s.respond r.status r.data := by
  simp [EngineOps.answered, hE.put_get, State.putSlot_self hs]

section
variable (E : EngineOps κ B) (e : Engine) (n k v l : Nat) (p : List Byte) (c : Context κ B)

theorem EngineOps.effect_init : E.effect (Instr.init e n k v) p c =
    if legalLengths E.engine k v then (E.constructed n c (memRead p 0 k) (memRead p k v), ⟨.ok, []⟩)
    else (c, ⟨.invalidLength, []⟩) := by
  cases e <;> rfl

theorem EngineOps.effect_xor : E.effect (Instr.xor e n l) p c =
    if c.valid then ((c.xorBytes E.refill p).2, ⟨.ok, (c.xorBytes E.refill p).1⟩) else (c, ⟨.noContext, []⟩) := by
  cases e <;> rfl

theorem EngineOps.effect_release : E.effect (Instr.release e n) p c =
    if c.valid then (E.destroyed n c, ⟨.ok, []⟩) else (c, ⟨.noContext, []⟩) := by
  cases e <;> rfl

end

/-- A command with its payload on the port, on a context that exists, has its effect on that context and no other
(10_state.md R12). -/
theorem exec_eq_answered {i : Instr} {E : EngineOps κ B} (hE : E.Models i.engine) {s : State} {p : List Byte}
    {slot : Slot} (hp : s.payload? = some p) (hl : p.length = i.payloadLength) (hs : s.slots[i.ctx]? = some slot) :
    exec i s = .next (E.answered i.ctx slot (E.effect i p (E.get slot)) s) := by
  obtain ⟨e, n, k, v, rfl⟩ | ⟨e, n, l, rfl⟩ | ⟨e, n, rfl⟩ := instr_cases i
  · simp only [Instr.init_engine, Instr.init_payloadLength, Instr.init_ctx] at hE hl hs ⊢
    rw [hE.init_eq, initGeneric_of hp hl hs, E.effect_init]
    split
    · rfl
    · rw [hE.answered_self hs]
  · simp only [Instr.xor_engine, Instr.xor_payloadLength, Instr.xor_ctx] at hE hl hs ⊢
    rw [hE.xor_eq, xorGeneric_of hp hl hs, E.effect_xor]
    split
    · rfl
    · rw [hE.answered_self hs]
  · simp only [Instr.release_engine, Instr.release_payloadLength, Instr.release_ctx] at hE hl hs ⊢
    rw [hE.release_eq, releaseGeneric_of hp hl hs, E.effect_release]
    split
    · rfl
    · rw [hE.answered_self hs]

/-- A legal word carries the payload of its command (30_encoding.md R45). -/
theorem plen_of_decode {nctx : Nat} {w : Word} {i : Instr} (h : decode nctx w = .ok i) : plen w = i.payloadLength := by
  obtain ⟨e, -, -, ⟨hop, -, rfl⟩ | ⟨hop, rfl⟩ | ⟨hop, -, rfl⟩⟩ := decode_cases h <;> simp [plen, hop]

/-- A command that gets an answer has its effect on the context it names, which exists (40_datapath.md R54). -/
theorem step_command {s : State} {t : Transaction} {rest : List Request} {i : Instr} {E : EngineOps κ B}
    (hr : s.requests = .command t :: rest) (ha : t.Admitted) (hd : decode s.nctx t.cmd = .ok i)
    (hE : E.Models i.engine) :
    ∃ slot, s.slots[i.ctx]? = some slot ∧
      step s = .next (E.answered i.ctx slot (E.effect i t.payload (E.get slot)) s) := by
  have hlt : i.ctx < s.slots.length := decode_ctx_lt hd
  have hs : s.slots[i.ctx]? = some s.slots[i.ctx] := List.getElem?_eq_getElem hlt
  refine ⟨_, hs, ?_⟩
  rw [step_of_command hr, execute_of_decode ha hd]
  exact exec_eq_answered hE (State.payload?_of_requests hr) (ha.trans (plen_of_decode hd)) hs

/-- `step_command` from the next state. -/
theorem step_command_cases {s u : State} {t : Transaction} {rest : List Request} {i : Instr} {E : EngineOps κ B}
    (hr : s.requests = .command t :: rest) (hd : decode s.nctx t.cmd = .ok i) (hu : step s = .next u)
    (hE : E.Models i.engine) :
    ∃ slot, s.slots[i.ctx]? = some slot ∧ u = E.answered i.ctx slot (E.effect i t.payload (E.get slot)) s := by
  obtain ⟨ha, -⟩ := execute_cases ((step_of_command hr).symm.trans hu)
  obtain ⟨slot, hs, hstep⟩ := step_command hr ha hd hE
  rw [hstep] at hu
  exact ⟨slot, hs, by cases hu; rfl⟩

end Effects

/-! The frame of a command (10_state.md R12) -/

theorem Slot.AgreeOn.refl (e : Engine) (a : Slot) : Slot.AgreeOn e a a := by cases e <;> rfl

theorem Slot.AgreeOn.validOf_eq {e : Engine} {a b : Slot} (h : Slot.AgreeOn e a b) : a.validOf e = b.validOf e := by
  cases e <;> exact congrArg Context.valid h

/-- The slots of two states that agree on a context, when both have them. -/
theorem State.AgreeOn.slot {e : Engine} {n : Nat} {s t : State} {a b : Slot} (h : State.AgreeOn e n s t)
    (ha : s.slots[n]? = some a) (hb : t.slots[n]? = some b) : Slot.AgreeOn e a b := by
  rw [State.AgreeOn, ha, hb] at h
  cases h with
  | some h => exact h

theorem State.AgreeOn.of_slot {e : Engine} {n : Nat} {s t : State} {a b : Slot} (ha : s.slots[n]? = some a)
    (hb : t.slots[n]? = some b) (h : Slot.AgreeOn e a b) : State.AgreeOn e n s t := by
  rw [State.AgreeOn, ha, hb]
  exact .some h

theorem State.AgreeOn.of_slots_eq {e : Engine} {n : Nat} {s t : State} (h : t.slots[n]? = s.slots[n]?) :
    State.AgreeOn e n s t := by
  rw [State.AgreeOn, h]
  cases s.slots[n]? with
  | none => exact .none
  | some a => exact .some (.refl e a)

section Frame

variable {s u : State} {t : Transaction} {rest : List Request} {i : Instr}

/-- A command keeps every other slot. -/
theorem step_command_other_slots (hr : s.requests = .command t :: rest) (hd : decode s.nctx t.cmd = .ok i)
    (hu : step s = .next u) :
    u.slots.length = s.slots.length ∧ ∀ m, m ≠ i.ctx → u.slots[m]? = s.slots[m]? := by
  obtain ⟨κ, B, E, hE⟩ := exists_models i.engine
  obtain ⟨slot, hs, rfl⟩ := step_command_cases hr hd hu hE
  exact ⟨List.length_set, fun m hm => List.getElem?_set_ne hm.symm⟩

/-- The slot of the context a command names, after it. -/
theorem EngineOps.answered_slot {κ : Type} {B : Nat} (E : EngineOps κ B) {n : Nat} {slot : Slot}
    (hs : s.slots[n]? = some slot) (x : Context κ B × Response) :
    (E.answered n slot x s).slots[n]? = some (E.put x.1 slot) :=
  List.getElem?_set_self (List.getElem?_eq_some_iff.1 hs).1

/-- A command keeps every context but the one it names. -/
theorem step_command_other_context (hr : s.requests = .command t :: rest) (hd : decode s.nctx t.cmd = .ok i)
    (hu : step s = .next u) {e : Engine} {n : Nat} (h : (e, n) ≠ (i.engine, i.ctx)) : State.AgreeOn e n s u := by
  by_cases hn : n = i.ctx
  · subst hn
    obtain ⟨κ, B, E, hE⟩ := exists_models i.engine
    obtain ⟨slot, hs, rfl⟩ := step_command_cases hr hd hu hE
    exact .of_slot hs (E.answered_slot hs _) (hE.agree_other e (fun he => h (by rw [he])) _ _)
  · exact .of_slots_eq ((step_command_other_slots hr hd hu).2 n hn)

end Frame

/-- Settles O36: the effect of a command is a function of its payload and of the one context it names. -/
theorem commandReadsAndWritesOnlyItsContext : Obligations.CommandReadsAndWritesOnlyItsContext := by
  constructor
  · intro s u t rest i hr hd hu
    obtain ⟨hlen, hslots⟩ := step_command_other_slots hr hd hu
    exact ⟨hlen, hslots, fun e he => step_command_other_context hr hd hu fun h => he (congrArg Prod.fst h)⟩
  · intro s s' u u' t rest rest' i hr hr' hn hd hagree hu hu'
    obtain ⟨κ, B, E, hE⟩ := exists_models i.engine
    obtain ⟨a, ha, rfl⟩ := step_command_cases hr hd hu hE
    obtain ⟨b, hb, rfl⟩ := step_command_cases hr' (hn ▸ hd) hu' hE
    have hget : E.get a = E.get b := (hE.agree_iff a b).1 (hagree.slot ha hb)
    refine ⟨.of_slot (E.answered_slot ha _) (E.answered_slot hb _) ?_, _, E.answered_responses .., ?_⟩
    · rw [hE.agree_iff, hE.get_put, hE.get_put, hget]
    · rw [E.answered_responses, hget]

/-! Which commands write VALID (10_state.md R13) -/

section Valid

variable {κ : Type} {B : Nat} (E : EngineOps κ B) (p : List Byte) (c : Context κ B)

theorem EngineOps.effect_ok_or_unchanged (i : Instr) :
    (E.effect i p c).2.status = .ok ∨ (E.effect i p c).1 = c := by
  obtain ⟨e, n, k, v, rfl⟩ | ⟨e, n, l, rfl⟩ | ⟨e, n, rfl⟩ := instr_cases i
  · rw [E.effect_init]
    split <;> simp
  · rw [E.effect_xor]
    split <;> simp
  · rw [E.effect_release]
    split <;> simp

theorem EngineOps.effect_init_valid {e : Engine} {n k v : Nat}
    (h : (E.effect (Instr.init e n k v) p c).2.status = .ok) : (E.effect (Instr.init e n k v) p c).1.valid = true := by
  rw [E.effect_init] at h ⊢
  split_ifs at h ⊢
  · rfl

theorem EngineOps.effect_xor_valid (e : Engine) (n l : Nat) :
    (E.effect (Instr.xor e n l) p c).1.valid = c.valid := by
  rw [E.effect_xor]
  split
  · exact Context.xorBytes_valid ..
  · rfl

theorem EngineOps.effect_release_valid {e : Engine} {n : Nat}
    (h : (E.effect (Instr.release e n) p c).2.status = .ok) : (E.effect (Instr.release e n) p c).1.valid = false := by
  rw [E.effect_release] at h ⊢
  split_ifs at h ⊢
  · rfl

end Valid

/-- The context a command names, before and after it: its effect, seen through VALID and the response. -/
theorem step_command_named_valid {s u : State} {t : Transaction} {rest : List Request} {i : Instr} {a b : Slot}
    {r : Response} (hr : s.requests = .command t :: rest) (hd : decode s.nctx t.cmd = .ok i) (hu : step s = .next u)
    (ha : s.slots[i.ctx]? = some a) (hb : u.slots[i.ctx]? = some b) (hresp : u.responses = s.responses ++ [r]) :
    ∃ (κ : Type) (B : Nat) (E : EngineOps κ B) (c : Context κ B), r = (E.effect i t.payload c).2 ∧
      a.validOf i.engine = c.valid ∧ b.validOf i.engine = (E.effect i t.payload c).1.valid := by
  obtain ⟨κ, B, E, hE⟩ := exists_models i.engine
  obtain ⟨slot, hs, rfl⟩ := step_command_cases hr hd hu hE
  obtain rfl : slot = a := Option.some.inj (hs.symm.trans ha)
  obtain rfl := Option.some.inj ((E.answered_slot hs _).symm.trans hb)
  rw [E.answered_responses] at hresp
  obtain rfl := List.singleton_inj.1 (List.append_cancel_left hresp)
  exact ⟨κ, B, E, _, rfl, hE.valid_eq _, by rw [hE.valid_eq, hE.get_put]⟩

/-- Every command but INIT and RELEASE with status OK keeps VALID of every context. -/
theorem step_command_keeps_valid {s u : State} {t : Transaction} {rest : List Request} {e : Engine} {n : Nat}
    {a b : Slot} {r : Response} (hr : s.requests = .command t :: rest) (hu : step s = .next u)
    (ha : s.slots[n]? = some a) (hb : u.slots[n]? = some b) (hresp : u.responses = s.responses ++ [r])
    (h : r.status ≠ .ok ∨ (¬ ∃ k v, decode s.nctx t.cmd = .ok (Instr.init e n k v)) ∧
      decode s.nctx t.cmd ≠ .ok (Instr.release e n)) : b.validOf e = a.validOf e := by
  obtain ⟨-, ⟨why, -, rfl⟩ | ⟨i, hd, -⟩⟩ := execute_cases ((step_of_command hr).symm.trans hu)
  · rw [Option.some.inj (ha.symm.trans hb)]
  by_cases hnamed : (e, n) = (i.engine, i.ctx)
  · obtain ⟨rfl, rfl⟩ := Prod.mk.inj hnamed
    obtain ⟨κ, B, E, c, rfl, hva, hvb⟩ := step_command_named_valid hr hd hu ha hb hresp
    rw [hva, hvb]
    obtain hok | hsame := E.effect_ok_or_unchanged t.payload c i
    · obtain ⟨hinit, hrelease⟩ := h.resolve_left (not_not_intro hok)
      obtain ⟨e, n, k, v, rfl⟩ | ⟨e, n, l, rfl⟩ | ⟨e, n, rfl⟩ := instr_cases i
      · exact absurd ⟨k, v, by simpa using hd⟩ hinit
      · exact E.effect_xor_valid ..
      · exact absurd (by simpa using hd) hrelease
    · rw [hsame]
  · exact ((step_command_other_context hr hd hu hnamed).slot ha hb).validOf_eq.symm

/-- Settles O37, by the three things a step can do; a command writes VALID as its effect on the named context does. -/
theorem onlyInitReleaseAndResetWriteValid : Obligations.OnlyInitReleaseAndResetWriteValid := by
  intro s u e n a b hu ha hb
  refine ⟨fun hr => ?_, fun inProgress rest hr => ?_, fun t rest r hr hresp => ⟨?_, ?_, ?_⟩⟩
  · obtain ⟨-, rfl⟩ | ⟨_, _, hr', -⟩ | ⟨_, _, hr', -⟩ := step_cases hu
    · rw [Option.some.inj (ha.symm.trans hb)]
    · simp [hr] at hr'
    · simp [hr] at hr'
  · rw [step_of_reset hr] at hu
    obtain ⟨-, rfl⟩ := executeReset_cases hu
    exact hostReset_allInvalid s b (List.mem_of_getElem? hb) e
  · rintro ⟨k, v, hd⟩ hok
    obtain ⟨κ, B, E, c, rfl, -, hvb⟩ := step_command_named_valid hr hd hu (by simpa using ha) (by simpa using hb) hresp
    rw [Instr.init_engine] at hvb
    exact hvb.trans (E.effect_init_valid _ c hok)
  · intro hd hok
    obtain ⟨κ, B, E, c, rfl, -, hvb⟩ := step_command_named_valid hr hd hu (by simpa using ha) (by simpa using hb) hresp
    rw [Instr.release_engine] at hvb
    exact hvb.trans (E.effect_release_valid _ c hok)
  · exact step_command_keeps_valid hr hu ha hb hresp

/-! What the host can observe of a context (10_state.md R13, R17, R25) -/

section Alike

variable {κ : Type} {B : Nat}

/-- The front byte is read from the pending keystream only. -/
theorem Context.frontByte_eq_pending (c : Context κ B) : c.frontByte = c.pending.getD 0 0#8 := by
  simp [Context.frontByte, Context.pending]

theorem Context.consume_pending (c : Context κ B) : c.consume.pending = c.pending.tail := by
  rw [Context.pending, Context.pending, List.tail_drop, Context.consume_ksb, Context.consume_ksn]
  by_cases h : c.ksn.val = 0
  · rw [List.drop_eq_nil_of_le (by simp [h]), List.drop_eq_nil_of_le (by simp [h])]
  · have := c.ksn.isLt
    congr 1
    omega

theorem Context.pending_of_ksn_zero {c : Context κ B} (h : c.ksn = 0) : c.pending = [] := by
  simp [Context.pending, h]

theorem Context.Alike.of_invalid {c d : Context κ B} (hc : c.valid = false) (hd : d.valid = false) : c.Alike d :=
  ⟨hc.trans hd.symm, fun h => by simp [hc] at h⟩

theorem Context.Alike.frontByte_eq {c d : Context κ B} (h : c.Alike d) (hv : c.valid = true) :
    c.frontByte = d.frontByte := by
  obtain ⟨-, -, hpending⟩ := h.2 hv
  rw [c.frontByte_eq_pending, d.frontByte_eq_pending, hpending]

theorem Context.Alike.consume {c d : Context κ B} (h : c.Alike d) : c.consume.Alike d.consume := by
  refine ⟨h.1, fun hv => ?_⟩
  obtain ⟨hcore, hksn, hpending⟩ := h.2 hv
  refine ⟨hcore, Fin.ext ?_, ?_⟩
  · rw [Context.consume_ksn, Context.consume_ksn, hksn]
  · rw [Context.consume_pending, Context.consume_pending, hpending]

/-- A refill replaces the whole of KSB by a function of the cipher state. -/
theorem Context.Alike.refilled {c d : Context κ B} (h : c.Alike d) (f : κ → Vector Byte B × κ) :
    (c.refilled f).Alike (d.refilled f) := by
  refine ⟨by simpa using h.1, fun hv => ?_⟩
  obtain ⟨hcore, hksn, hpending⟩ := h.2 (by simpa using hv)
  by_cases hz : c.ksn.val = 0
  · rw [Context.refilled_of_zero f hz, Context.refilled_of_zero f (hksn ▸ hz)]
    simp [Context.pending, hcore]
  · rw [Context.refilled_of_pos f (by omega), Context.refilled_of_pos f (by omega)]
    exact ⟨hcore, hksn, hpending⟩

theorem Context.Alike.nextByte {c d : Context κ B} (h : c.Alike d) (hv : c.valid = true) (f : κ → Vector Byte B × κ) :
    (c.nextByte f).1 = (d.nextByte f).1 ∧ (c.nextByte f).2.Alike (d.nextByte f).2 :=
  ⟨(h.refilled f).frontByte_eq (by simpa using hv), (h.refilled f).consume⟩

theorem Context.Alike.xorBytes {c d : Context κ B} (h : c.Alike d) (hv : c.valid = true) (f : κ → Vector Byte B × κ)
    (input : List Byte) :
    (c.xorBytes f input).1 = (d.xorBytes f input).1 ∧ (c.xorBytes f input).2.Alike (d.xorBytes f input).2 := by
  induction input generalizing c d with
  | nil => exact ⟨rfl, h⟩
  | cons b bs ih =>
    obtain ⟨hbyte, hnext⟩ := h.nextByte hv f
    obtain ⟨hdata, hlast⟩ := ih hnext (by simpa using hv)
    rw [Context.xorBytes_cons, Context.xorBytes_cons, hbyte, hdata]
    exact ⟨rfl, hlast⟩

/-- INIT leaves nothing to observe of the context before it: no keystream is pending. -/
theorem EngineOps.constructed_alike (E : EngineOps κ B) (n : Nat) (c d : Context κ B) (key iv : List Byte) :
    (E.constructed n c key iv).Alike (E.constructed n d key iv) :=
  ⟨rfl, fun _ => ⟨rfl, rfl,
    (Context.pending_of_ksn_zero (E.constructed_ksn ..)).trans (Context.pending_of_ksn_zero (E.constructed_ksn ..)).symm⟩⟩

theorem EngineOps.destroyed_alike (E : EngineOps κ B) (n : Nat) (c d : Context κ B) :
    (E.destroyed n c).Alike (E.destroyed n d) := .of_invalid (E.destroyed_valid n c) (E.destroyed_valid n d)

/-- A command responds alike on contexts the host cannot tell apart, and leaves them so. -/
theorem Context.Alike.effect {c d : Context κ B} (h : c.Alike d) (E : EngineOps κ B) (i : Instr) (p : List Byte) :
    (E.effect i p c).2 = (E.effect i p d).2 ∧ (E.effect i p c).1.Alike (E.effect i p d).1 := by
  obtain ⟨e, n, k, v, rfl⟩ | ⟨e, n, l, rfl⟩ | ⟨e, n, rfl⟩ := instr_cases i
  · rw [E.effect_init, E.effect_init]
    split
    · exact ⟨rfl, E.constructed_alike ..⟩
    · exact ⟨rfl, h⟩
  · rw [E.effect_xor, E.effect_xor, ← h.1]
    split
    next hv =>
      obtain ⟨hdata, hleft⟩ := h.xorBytes hv E.refill p
      exact ⟨by rw [hdata], hleft⟩
    · exact ⟨rfl, h⟩
  · rw [E.effect_release, E.effect_release, ← h.1]
    split
    · exact ⟨rfl, E.destroyed_alike ..⟩
    · exact ⟨rfl, h⟩

theorem Slot.Alike.of_invalid {a b : Slot} (ha : ∀ e, a.validOf e = false) (hb : ∀ e, b.validOf e = false) :
    a.Alike b :=
  ⟨.of_invalid (ha .hc128) (hb .hc128), .of_invalid (ha .hc256) (hb .hc256), .of_invalid (ha .rabbit) (hb .rabbit)⟩

theorem EngineOps.Models.get_alike {e : Engine} {E : EngineOps κ B} (hE : E.Models e) {a b : Slot} (h : a.Alike b) :
    (E.get a).Alike (E.get b) := hE.rel_get Context.Alike a b h

theorem EngineOps.Models.put_alike {e : Engine} {E : EngineOps κ B} (hE : E.Models e) {a b : Slot}
    {c d : Context κ B} (h : a.Alike b) (hcd : c.Alike d) : (E.put c a).Alike (E.put d b) :=
  hE.rel_put Context.Alike a b c d h hcd

/-! States the host cannot tell apart -/

section States

variable {s t : State}

theorem State.Alike.nctx_eq (h : s.Alike t) : s.nctx = t.nctx := h.1.length_eq

theorem State.Alike.slot (h : s.Alike t) {n : Nat} {a b : Slot} (ha : s.slots[n]? = some a)
    (hb : t.slots[n]? = some b) : a.Alike b := by
  obtain ⟨hn, rfl⟩ := List.getElem?_eq_some_iff.1 ha
  obtain ⟨hm, rfl⟩ := List.getElem?_eq_some_iff.1 hb
  exact h.1.get hn hm

/-- `List.set` at one position keeps a relation between the elements of two lists. -/
theorem forall₂_set {α β : Type} {R : α → β → Prop} {l : List α} {m : List β} (h : List.Forall₂ R l m) {a : α} {b : β}
    (hab : R a b) (n : Nat) : List.Forall₂ R (l.set n a) (m.set n b) := by
  induction h generalizing n with
  | nil => exact .nil
  | cons hhead htail ih =>
    cases n with
    | zero => exact .cons hab htail
    | succ n => exact .cons hhead (ih n)

theorem State.Alike.putSlot (h : s.Alike t) {a b : Slot} (hab : a.Alike b) (n : Nat) :
    (s.putSlot n a).Alike (t.putSlot n b) := ⟨forall₂_set h.1 hab n, h.2⟩

theorem State.Alike.respond (h : s.Alike t) (st : Status) (data : List Byte) :
    (s.respond st data).Alike (t.respond st data) := by
  obtain ⟨hslots, hrequests, hresponses⟩ := h
  exact ⟨hslots, by simp [hrequests], by simp [hresponses]⟩

theorem State.Alike.hostReset (h : s.Alike t) : (hostReset s).Alike (hostReset t) := by
  obtain ⟨hslots, hrequests, hresponses⟩ := h
  refine ⟨List.forall₂_iff_get.2 ⟨by simpa using hslots.length_eq, fun n hn hm => ?_⟩, by simp [hrequests], hresponses⟩
  exact .of_invalid (hostReset_allInvalid s _ (List.get_mem ..)) (hostReset_allInvalid t _ (List.get_mem ..))

theorem State.Alike.step_command {x : Transaction} {rest : List Request} {u : State} (h : s.Alike t)
    (hr : s.requests = .command x :: rest) (hu : execute x s = .next u) : ∃ v, step t = .next v ∧ u.Alike v := by
  have hrt : t.requests = .command x :: rest := h.2.1 ▸ hr
  obtain ⟨ha, ⟨why, hd, rfl⟩ | ⟨i, hd, -⟩⟩ := execute_cases hu
  · refine ⟨t.respond .illegalCommand [], ?_, h.respond _ _⟩
    rw [step_of_command hrt, execute, ifAdmitted_of _ ha, ← h.nctx_eq, hd]
    rfl
  · obtain ⟨κ, B, E, hE⟩ := exists_models i.engine
    obtain ⟨a, hsa, rfl⟩ := step_command_cases hr hd ((step_of_command hr).trans hu) hE
    obtain ⟨b, htb, hstep⟩ := Machine.step_command hrt ha (h.nctx_eq ▸ hd) hE
    have hab : a.Alike b := h.slot hsa htb
    obtain ⟨hresponse, hleft⟩ := (hE.get_alike hab).effect E i x.payload
    refine ⟨_, hstep, ?_⟩
    rw [EngineOps.answered, EngineOps.answered, hresponse]
    exact (h.putSlot (hE.put_alike hab hleft) _).respond _ _

end States

end Alike

/-- Settles O39, by the three things a step can do; XOR is the case that needs an induction, over the bytes. -/
theorem hiddenFieldsAreNeverObserved : Obligations.HiddenFieldsAreNeverObserved := by
  intro s t u h hu
  obtain ⟨hr, rfl⟩ | ⟨inProgress, rest, hr, ha, rfl⟩ | ⟨x, rest, hr, hx⟩ := step_cases hu
  · exact ⟨t, by simp [step, ← h.2.1, hr], h⟩
  · refine ⟨hostReset t, ?_, h.hostReset⟩
    rw [step_of_reset (h.2.1 ▸ hr), executeReset_of t ha]
  · exact h.step_command hr hx

end Sys2Proof.Machine

/-! Two commands to different contexts, in either order (20_memory.md R36). -/

namespace Sys2Proof.Machine

/-! Agreement on a context is an equality, so it composes; agreement on every context is equality of the slots. -/

theorem EngineOps.Models.state_agree_iff {κ : Type} {B : Nat} {e : Engine} {E : EngineOps κ B} (hE : E.Models e)
    (n : Nat) (s t : State) : State.AgreeOn e n s t ↔ s.slots[n]?.map E.get = t.slots[n]?.map E.get := by
  rw [State.AgreeOn]
  cases s.slots[n]? <;> cases t.slots[n]? <;> simp [hE.agree_iff]

theorem State.AgreeOn.symm {e : Engine} {n : Nat} {s t : State} (h : State.AgreeOn e n s t) :
    State.AgreeOn e n t s := by
  obtain ⟨κ, B, E, hE⟩ := exists_models e
  rw [hE.state_agree_iff] at h ⊢
  exact h.symm

theorem State.AgreeOn.trans {e : Engine} {n : Nat} {s t u : State} (h : State.AgreeOn e n s t)
    (h' : State.AgreeOn e n t u) : State.AgreeOn e n s u := by
  obtain ⟨κ, B, E, hE⟩ := exists_models e
  rw [hE.state_agree_iff] at h h' ⊢
  exact h.trans h'

theorem Slot.eq_of_agree {a b : Slot} (h : ∀ e, Slot.AgreeOn e a b) : a = b := by
  have hall : a.hc128 = b.hc128 ∧ a.hc256 = b.hc256 ∧ a.rabbit = b.rabbit := ⟨h .hc128, h .hc256, h .rabbit⟩
  cases a
  cases b
  simpa using hall

theorem State.slots_eq_of_agree {s t : State} (h : ∀ e n, State.AgreeOn e n s t) : s.slots = t.slots := by
  refine List.ext_getElem? fun n => ?_
  have hn := fun e => h e n
  simp only [State.AgreeOn] at hn
  cases ha : s.slots[n]? with
  | none =>
    cases hb : t.slots[n]? with
    | none => rfl
    | some b => simpa [ha, hb] using hn .hc128
  | some a =>
    cases hb : t.slots[n]? with
    | none => simpa [ha, hb] using hn .hc128
    | some b => exact congrArg some (Slot.eq_of_agree fun e => by simpa [ha, hb] using hn e)

/-! Two commands, one after the other -/

/-- With exactly `t₁` and `t₂` on the port, `s` answers `t₁` and is then `u`, and `u` answers `t₂` and is then `w`.
`runCommands_eq` ties it to `State.runCommands`. -/
structure State.AnswersInTurn (s : State) (t₁ t₂ : Transaction) (u w : State) : Prop where
  first : step { s with requests := [.command t₁, .command t₂] } = .next u
  between : u.requests = [.command t₂]
  nctx_eq : u.nctx = s.nctx
  second : step u = .next w
  last : w.requests = []

theorem State.AnswersInTurn.runCommands_eq {s u w : State} {t₁ t₂ : Transaction} (h : s.AnswersInTurn t₁ t₂ u w) :
    s.runCommands [t₁, t₂] = .next w := by
  obtain ⟨hfirst, hbetween, -, hsecond, hlast⟩ := h
  have hu : { u with requests := [.command t₂] } = u := by rw [← hbetween]
  have hw : { w with requests := [] } = w := by rw [← hlast]
  calc s.runCommands [t₁, t₂]
    _ = u.runCommands [t₂] := State.runCommands_cons hfirst hbetween
    _ = w.runCommands [] := State.runCommands_cons (hu.symm ▸ hsecond) hlast
    _ = .next w := by rw [State.runCommands_nil, hw]

/-- A command with a meaning is answered, leaves the port, and keeps NCTX. -/
theorem step_command_answers {s : State} {t : Transaction} {rest : List Request} {i : Instr}
    (hr : s.requests = .command t :: rest) (ha : t.Admitted) (hd : decode s.nctx t.cmd = .ok i) :
    ∃ u, step s = .next u ∧ u.requests = rest ∧ u.nctx = s.nctx := by
  obtain ⟨κ, B, E, hE⟩ := exists_models i.engine
  obtain ⟨slot, -, hu⟩ := step_command hr ha hd hE
  exact ⟨_, hu, by simp [hr], (step_command_other_slots hr hd hu).1⟩

section InTurn

variable {s u w : State} {t₁ t₂ : Transaction} {i₁ i₂ : Instr}

/-- The first command keeps every context it does not name. -/
theorem State.AnswersInTurn.first_other_context (h : s.AnswersInTurn t₁ t₂ u w)
    (hd₁ : decode s.nctx t₁.cmd = .ok i₁) {e : Engine} {n : Nat} (hne : (e, n) ≠ (i₁.engine, i₁.ctx)) :
    State.AgreeOn e n s u :=
  step_command_other_context (s := { s with requests := _ }) rfl hd₁ h.first hne

/-- The second command keeps every context it does not name. -/
theorem State.AnswersInTurn.second_other_context (h : s.AnswersInTurn t₁ t₂ u w)
    (hd₂ : decode s.nctx t₂.cmd = .ok i₂) {e : Engine} {n : Nat} (hne : (e, n) ≠ (i₂.engine, i₂.ctx)) :
    State.AgreeOn e n u w :=
  step_command_other_context h.between (h.nctx_eq ▸ hd₂) h.second hne

theorem exists_answersInTurn (ha₁ : t₁.Admitted) (ha₂ : t₂.Admitted) (hd₁ : decode s.nctx t₁.cmd = .ok i₁)
    (hd₂ : decode s.nctx t₂.cmd = .ok i₂) : ∃ u w, s.AnswersInTurn t₁ t₂ u w := by
  obtain ⟨u, hu, hru, hn⟩ :=
    step_command_answers (s := { s with requests := [.command t₁, .command t₂] }) rfl ha₁ hd₁
  obtain ⟨w, hw, hrw, -⟩ := step_command_answers hru ha₂ (hn ▸ hd₂)
  exact ⟨u, w, hu, hru, hn, hw, hrw⟩

/-- A command answers the same, and leaves the same in the context it names, whether it runs before or after a command
to another context: that command keeps its context (10_state.md R12). -/
theorem State.AnswersInTurn.swap {u' w' : State} (h : s.AnswersInTurn t₁ t₂ u w) (h' : s.AnswersInTurn t₂ t₁ u' w')
    (hd₁ : decode s.nctx t₁.cmd = .ok i₁) (hd₂ : decode s.nctx t₂.cmd = .ok i₂)
    (hne : (i₁.engine, i₁.ctx) ≠ (i₂.engine, i₂.ctx)) :
    State.AgreeOn i₁.engine i₁.ctx w w' ∧
      ∃ r, u.responses = s.responses ++ [r] ∧ w'.responses = u'.responses ++ [r] := by
  have hbefore : State.AgreeOn i₁.engine i₁.ctx s u' := h'.first_other_context hd₂ hne
  have hafter : State.AgreeOn i₁.engine i₁.ctx u w := h.second_other_context hd₂ hne
  obtain ⟨-, hlocal⟩ := commandReadsAndWritesOnlyItsContext
  obtain ⟨hsame, hresponse⟩ := hlocal { s with requests := _ } u' u w' t₁ _ _ i₁ rfl h'.between h'.nctx_eq.symm hd₁
    hbefore h.first h'.second
  exact ⟨hafter.symm.trans hsame, hresponse⟩

end InTurn

/-- Settles O38, from O36: each command finds and leaves its own context the same in either order. -/
theorem commandsToDifferentContextsCommute : Obligations.CommandsToDifferentContextsCommute := by
  intro s t₁ t₂ i₁ i₂ ha₁ ha₂ hd₁ hd₂ hne
  obtain ⟨u, w, h⟩ := exists_answersInTurn ha₁ ha₂ hd₁ hd₂
  obtain ⟨u', w', h'⟩ := exists_answersInTurn ha₂ ha₁ hd₂ hd₁
  obtain ⟨hsame₁, r₁, hu, hw'⟩ := h.swap h' hd₁ hd₂ hne
  obtain ⟨hsame₂, r₂, hu', hw⟩ := h'.swap h hd₂ hd₁ hne.symm
  refine ⟨w, w', r₁, r₂, h.runCommands_eq, h'.runCommands_eq, State.slots_eq_of_agree fun e n => ?_,
    by simp [hw, hu], by simp [hw', hu']⟩
  by_cases h₁ : (e, n) = (i₁.engine, i₁.ctx)
  · obtain ⟨rfl, rfl⟩ := Prod.mk.inj h₁
    exact hsame₁
  by_cases h₂ : (e, n) = (i₂.engine, i₂.ctx)
  · obtain ⟨rfl, rfl⟩ := Prod.mk.inj h₂
    exact hsame₂.symm
  · have hkept : State.AgreeOn e n s w := (h.first_other_context hd₁ h₁).trans (h.second_other_context hd₂ h₂)
    have hkept' : State.AgreeOn e n s w' := (h'.first_other_context hd₂ h₂).trans (h'.second_other_context hd₁ h₁)
    exact hkept.symm.trans hkept'

end Sys2Proof.Machine

/-! The command word: the decoder and the encoder are inverse to each other, and the decoder follows the opcode map
(30_encoding.md R43, R46, R47, R48). -/

namespace Sys2Proof

/-! Well-formed commands -/

theorem Instr.wellFormed_init_iff (nctx : Nat) (e : Engine) (n k v : Nat) :
    (Instr.init e n k v).WellFormed nctx = true ↔ n < nctx ∧ n < 16 ∧ k < 256 ∧ v < 256 := by
  cases e <;> simp [Instr.init, Instr.WellFormed, and_assoc]

theorem Instr.wellFormed_xor_iff (nctx : Nat) (e : Engine) (n l : Nat) :
    (Instr.xor e n l).WellFormed nctx = true ↔ n < nctx ∧ n < 16 ∧ l < 2 ^ 24 := by
  cases e <;> simp [Instr.xor, Instr.WellFormed, and_assoc]

theorem Instr.wellFormed_release_iff (nctx : Nat) (e : Engine) (n : Nat) :
    (Instr.release e n).WellFormed nctx = true ↔ n < nctx ∧ n < 16 := by
  cases e <;> simp [Instr.release, Instr.WellFormed]

/-! The layouts of a word (30_encoding.md R43), as numbers -/

/-- The XOR layout: LEN, CTX, OP, ENG. -/
theorem toNat_eq_fields (w : Word) : w.toNat = lenField w * 256 + ctxField w * 16 + opField w * 4 + engField w := by
  have := w.isLt
  simp only [lenField, ctxField, opField, engField, bits]
  omega

/-- The INIT layout cuts LEN into the must-be-zero bits, IVLEN and KLEN. -/
theorem lenField_eq (w : Word) : lenField w = bits w 31 24 * 65536 + ivlenField w * 256 + klenField w := by
  simp only [lenField, ivlenField, klenField, bits]
  omega

/-! What the decoder answers, from the fields: with `decode_cases`, exactly the legal words of R48 -/

theorem engineOfCode_engineCode (e : Engine) : engineOfCode (engineCode e).toNat = some e := by cases e <;> rfl

section
variable {nctx : Nat} {w : Word} {e : Engine} (he : engField w = (engineCode e).toNat) (hc : ctxField w < nctx)
include he hc

theorem decode_init (ho : opField w = 0) (hb : bits w 31 24 = 0) :
    decode nctx w = .ok (Instr.init e (ctxField w) (klenField w) (ivlenField w)) := by
  simp [decode, he, engineOfCode_engineCode, ho, (inRange_iff _ _).2 hc, hb]

theorem decode_xor (ho : opField w = 1) : decode nctx w = .ok (Instr.xor e (ctxField w) (lenField w)) := by
  simp [decode, he, engineOfCode_engineCode, ho, (inRange_iff _ _).2 hc]

theorem decode_release (ho : opField w = 2) (hb : bits w 31 8 = 0) :
    decode nctx w = .ok (Instr.release e (ctxField w)) := by
  simp [decode, he, engineOfCode_engineCode, ho, (inRange_iff _ _).2 hc, hb]

end

/-! The fields of the words the encoder writes: a layout determines its fields -/

theorem initWord_fields (e : Engine) {n k v : Nat} (hn : n < 16) (hk : k < 256) (hv : v < 256) :
    engField (initWord e n k v) = (engineCode e).toNat ∧ opField (initWord e n k v) = 0 ∧
      ctxField (initWord e n k v) = n ∧ klenField (initWord e n k v) = k ∧ ivlenField (initWord e n k v) = v ∧
      bits (initWord e n k v) 31 24 = 0 := by
  have := engineCode_lt e
  simp only [engField, opField, ctxField, klenField, ivlenField, bits, initWord_toNat e hn hk hv]
  omega

theorem xorWord_fields (e : Engine) {n l : Nat} (hn : n < 16) (hl : l < 2 ^ 24) :
    engField (xorWord e n l) = (engineCode e).toNat ∧ opField (xorWord e n l) = 1 ∧ ctxField (xorWord e n l) = n ∧
      lenField (xorWord e n l) = l := by
  have := engineCode_lt e
  simp only [engField, opField, ctxField, lenField, bits, xorWord_toNat e hn hl]
  omega

theorem releaseWord_fields (e : Engine) {n : Nat} (hn : n < 16) :
    engField (releaseWord e n) = (engineCode e).toNat ∧ opField (releaseWord e n) = 2 ∧
      ctxField (releaseWord e n) = n ∧ bits (releaseWord e n) 31 8 = 0 := by
  have := engineCode_lt e
  simp only [engField, opField, ctxField, bits, releaseWord_toNat e hn]
  omega

/-! The two round trips -/

/-- Settles O1, by the three layouts: the encoder writes the fields that the decoder reads. -/
theorem decodeOfEncodeIsTheCommand : Obligations.DecodeOfEncodeIsTheCommand := by
  intro nctx i hwf
  obtain ⟨e, n, k, v, rfl⟩ | ⟨e, n, l, rfl⟩ | ⟨e, n, rfl⟩ := Machine.instr_cases i
  · obtain ⟨hc, hn, hk, hv⟩ := (Instr.wellFormed_init_iff ..).1 hwf
    obtain ⟨heng, hop, hctx, hklen, hivlen, hzero⟩ := initWord_fields e hn hk hv
    rw [encode_init, decode_init heng (hctx.symm ▸ hc) hop hzero, hctx, hklen, hivlen]
  · obtain ⟨hc, hn, hl⟩ := (Instr.wellFormed_xor_iff ..).1 hwf
    obtain ⟨heng, hop, hctx, hlen⟩ := xorWord_fields e hn hl
    rw [encode_xor, decode_xor heng (hctx.symm ▸ hc) hop, hctx, hlen]
  · obtain ⟨hc, hn⟩ := (Instr.wellFormed_release_iff ..).1 hwf
    obtain ⟨heng, hop, hctx, hzero⟩ := releaseWord_fields e hn
    rw [encode_release, decode_release heng (hctx.symm ▸ hc) hop hzero, hctx]

/-- Settles O2, by the three answers of the decoder: the fields it reads, and the bits it requires to be zero, are the
whole word. -/
theorem encodeOfDecodeIsTheWord : Obligations.EncodeOfDecodeIsTheWord := by
  intro nctx w i h
  obtain ⟨e, he, hc, hop⟩ := decode_cases h
  have heng := engineCode_of_engineOfCode he
  have hctx := ctxField_lt w
  have hword := toNat_eq_fields w
  obtain ⟨ho, hb, rfl⟩ | ⟨ho, rfl⟩ | ⟨ho, hb, rfl⟩ := hop
  · have hk := klenField_lt w
    have hv := ivlenField_lt w
    refine ⟨(Instr.wellFormed_init_iff ..).2 ⟨hc, hctx, hk, hv⟩, BitVec.eq_of_toNat_eq ?_⟩
    rw [encode_init, initWord_toNat e hctx hk hv, hword, lenField_eq, hb, ho, heng]
    omega
  · have hl := lenField_lt w
    refine ⟨(Instr.wellFormed_xor_iff ..).2 ⟨hc, hctx, hl⟩, BitVec.eq_of_toNat_eq ?_⟩
    rw [encode_xor, xorWord_toNat e hctx hl, hword, ho, heng]
  · refine ⟨(Instr.wellFormed_release_iff ..).2 ⟨hc, hctx⟩, BitVec.eq_of_toNat_eq ?_⟩
    have hlen : lenField w = 0 := hb
    rw [encode_release, releaseWord_toNat e hctx, hword, hlen, ho, heng]
    omega

/-! Reserved words (30_encoding.md R47) -/

/-- The five properties of R47, in the order the rule lists them; `decode_error_iff` ties them to the decoder. -/
def ReservedWord (nctx : Nat) (w : Word) : Prop :=
  bits w 1 0 = 3 ∨ bits w 3 2 = 3 ∨ (bits w 3 2 = 0 ∧ bits w 31 24 ≠ 0) ∨ (bits w 3 2 = 2 ∧ bits w 31 8 ≠ 0) ∨
    nctx ≤ bits w 7 4

theorem exists_engine_of_engField_ne {w : Word} (h : engField w ≠ 3) : ∃ e, engField w = (engineCode e).toNat := by
  have := engField_lt w
  obtain h0 | h1 | h2 : engField w = 0 ∨ engField w = 1 ∨ engField w = 2 := by omega
  · exact ⟨.hc128, h0⟩
  · exact ⟨.hc256, h1⟩
  · exact ⟨.rabbit, h2⟩

theorem exists_decode_of_not_reserved {nctx : Nat} {w : Word} (h : ¬ ReservedWord nctx w) :
    ∃ i, decode nctx w = .ok i := by
  simp only [ReservedWord, not_or, not_and, not_not, Nat.not_le] at h
  obtain ⟨heng, hop, hinit, hrelease, hc⟩ := h
  obtain ⟨e, he⟩ := exists_engine_of_engField_ne heng
  have := opField_lt w
  obtain ho | ho | ho : opField w = 0 ∨ opField w = 1 ∨ opField w = 2 := by unfold opField at *; omega
  · exact ⟨_, decode_init he hc ho (hinit ho)⟩
  · exact ⟨_, decode_xor he hc ho⟩
  · exact ⟨_, decode_release he hc ho (hrelease ho)⟩

theorem not_reserved_of_decode {nctx : Nat} {w : Word} {i : Instr} (h : decode nctx w = .ok i) :
    ¬ ReservedWord nctx w := by
  obtain ⟨e, he, hc, hop⟩ := decode_cases h
  have heng := engineCode_of_engineOfCode he
  have := engineCode_lt e
  unfold engField opField ctxField at *
  unfold ReservedWord
  omega

theorem decode_error_iff_not_ok (nctx : Nat) (w : Word) :
    (∃ why, decode nctx w = .error why) ↔ ¬ ∃ i, decode nctx w = .ok i := by
  cases decode nctx w <;> simp

theorem decode_error_iff (nctx : Nat) (w : Word) : (∃ why, decode nctx w = .error why) ↔ ReservedWord nctx w := by
  rw [decode_error_iff_not_ok]
  constructor
  · exact fun h => not_not.1 fun hr => h (exists_decode_of_not_reserved hr)
  · rintro hr ⟨i, hi⟩
    exact not_reserved_of_decode hi hr

/-- Settles O4: a word decodes exactly when none of the five properties holds. -/
theorem reservedWordsHaveOneOfFiveProperties : Obligations.ReservedWordsHaveOneOfFiveProperties := decode_error_iff

/-! The opcode map (30_encoding.md R46), row by row -/

namespace OpcodeRow

/-- The INIT row of an engine kind: bits 31..24 are 0, and OP = 0. -/
def ofInit (e : Engine) : OpcodeRow :=
  ⟨(Instr.init e 0 0 0).mnemonic, 0xFF00000F#32, (engineCode e).setWidth 32⟩

/-- The XOR row of an engine kind: OP = 1. -/
def ofXor (e : Engine) : OpcodeRow := ⟨(Instr.xor e 0 0).mnemonic, 0x0000000F#32, 4#32 + (engineCode e).setWidth 32⟩

/-- The RELEASE row of an engine kind: bits 31..8 are 0, and OP = 2. -/
def ofRelease (e : Engine) : OpcodeRow :=
  ⟨(Instr.release e 0).mnemonic, 0xFFFFFF0F#32, 8#32 + (engineCode e).setWidth 32⟩

theorem opcodeMap_eq : opcodeMap =
    [Engine.hc128, Engine.hc256, Engine.rabbit].flatMap fun e => [ofInit e, ofXor e, ofRelease e] := by decide

theorem mem_opcodeMap_iff {r : OpcodeRow} : r ∈ opcodeMap ↔ ∃ e, r = ofInit e ∨ r = ofXor e ∨ r = ofRelease e := by
  have hall : ∀ e, e ∈ [Engine.hc128, Engine.hc256, Engine.rabbit] := by intro e; cases e <;> decide
  simp only [opcodeMap_eq, List.mem_flatMap, hall, true_and, List.mem_cons, List.not_mem_nil, or_false]

theorem ofInit_matches_iff (e : Engine) (w : Word) :
    (ofInit e).Matches w = true ↔ engField w = (engineCode e).toNat ∧ opField w = 0 ∧ bits w 31 24 = 0 := by
  have hvalue : (ofInit e).value.toNat = (engineCode e).toNat := by cases e <;> rfl
  have := engineCode_lt e
  have := engField_lt w
  rw [matches_iff, hvalue, ofInit, and_maskInit, low_bits]
  omega

theorem ofXor_matches_iff (e : Engine) (w : Word) :
    (ofXor e).Matches w = true ↔ engField w = (engineCode e).toNat ∧ opField w = 1 := by
  have hvalue : (ofXor e).value.toNat = 4 + (engineCode e).toNat := by cases e <;> rfl
  have := engineCode_lt e
  have := engField_lt w
  rw [matches_iff, hvalue, ofXor, and_maskXor, low_bits]
  omega

theorem ofRelease_matches_iff (e : Engine) (w : Word) :
    (ofRelease e).Matches w = true ↔ engField w = (engineCode e).toNat ∧ opField w = 2 ∧ bits w 31 8 = 0 := by
  have hvalue : (ofRelease e).value.toNat = 8 + (engineCode e).toNat := by cases e <;> rfl
  have := engineCode_lt e
  have := engField_lt w
  have := opField_lt w
  rw [matches_iff, hvalue, ofRelease, and_maskRelease, low_bits]
  omega

/-- A word that matches a row, for a context that exists, is the command of that row. -/
theorem exists_decode_of_matches {nctx : Nat} {w : Word} {r : OpcodeRow} (hr : r ∈ opcodeMap)
    (hm : r.Matches w = true) (hc : ctxField w < nctx) :
    ∃ i, decode nctx w = .ok i ∧ r.mnemonic = i.mnemonic := by
  obtain ⟨e, rfl | rfl | rfl⟩ := mem_opcodeMap_iff.1 hr
  · obtain ⟨he, ho, hb⟩ := (ofInit_matches_iff e w).1 hm
    exact ⟨_, decode_init he hc ho hb, by cases e <;> rfl⟩
  · obtain ⟨he, ho⟩ := (ofXor_matches_iff e w).1 hm
    exact ⟨_, decode_xor he hc ho, by cases e <;> rfl⟩
  · obtain ⟨he, ho, hb⟩ := (ofRelease_matches_iff e w).1 hm
    exact ⟨_, decode_release he hc ho hb, by cases e <;> rfl⟩

/-- A word that decodes matches the row of its OP and ENG. -/
theorem exists_matches_of_decode {nctx : Nat} {w : Word} {i : Instr} (h : decode nctx w = .ok i) :
    ∃ r ∈ opcodeMap, r.Matches w = true := by
  obtain ⟨e, he, -, hop⟩ := decode_cases h
  have heng := (engineCode_of_engineOfCode he).symm
  obtain ⟨ho, hb, -⟩ | ⟨ho, -⟩ | ⟨ho, hb, -⟩ := hop
  · exact ⟨ofInit e, mem_opcodeMap_iff.2 ⟨e, .inl rfl⟩, (ofInit_matches_iff e w).2 ⟨heng, ho, hb⟩⟩
  · exact ⟨ofXor e, mem_opcodeMap_iff.2 ⟨e, .inr (.inl rfl)⟩, (ofXor_matches_iff e w).2 ⟨heng, ho⟩⟩
  · exact ⟨ofRelease e, mem_opcodeMap_iff.2 ⟨e, .inr (.inr rfl)⟩, (ofRelease_matches_iff e w).2 ⟨heng, ho, hb⟩⟩

/-- A row tests all of bits 3..0 of a word. -/
theorem low_bits_of_matches {w : Word} {r : OpcodeRow} (hr : r ∈ opcodeMap) (hm : r.Matches w = true) :
    r.value &&& 0xF#32 = w &&& 0xF#32 := by
  have hmask : ∀ r ∈ opcodeMap, r.mask &&& 0xF#32 = 0xF#32 := by decide
  rw [← beq_iff_eq.1 hm, BitVec.and_assoc, hmask r hr]

theorem low_bits_differ : ∀ r ∈ opcodeMap, ∀ r' ∈ opcodeMap, r ≠ r' → r.value &&& 0xF#32 ≠ r'.value &&& 0xF#32 := by
  decide

end OpcodeRow

theorem legal_iff (nctx : Nat) (w : Word) :
    (∃ i, decode nctx w = .ok i) ↔ (∃ r ∈ opcodeMap, r.Matches w = true) ∧ bits w 7 4 < nctx := by
  constructor
  · rintro ⟨i, hi⟩
    obtain ⟨-, -, hc, -⟩ := decode_cases hi
    exact ⟨OpcodeRow.exists_matches_of_decode hi, hc⟩
  · rintro ⟨⟨r, hr, hm⟩, hc⟩
    obtain ⟨i, hi, -⟩ := OpcodeRow.exists_decode_of_matches hr hm hc
    exact ⟨i, hi⟩

/-- Settles O3. That rows do not overlap follows from their bits 3..0, which every row tests. -/
theorem legalWordsMatchExactlyOneRow : Obligations.LegalWordsMatchExactlyOneRow := by
  refine ⟨fun nctx w => ⟨legal_iff nctx w, fun i hi r hr hm => ?_⟩, fun w r hr r' hr' hm hm' => ?_,
    OpcodeRow.low_bits_differ⟩
  · obtain ⟨-, hc⟩ := (legal_iff nctx w).1 ⟨i, hi⟩
    obtain ⟨j, hj, hname⟩ := OpcodeRow.exists_decode_of_matches hr hm hc
    rw [hname, Except.ok.inj (hj.symm.trans hi)]
  · by_contra hne
    exact OpcodeRow.low_bits_differ r hr r' hr' hne
      ((OpcodeRow.low_bits_of_matches hr hm).trans (OpcodeRow.low_bits_of_matches hr' hm').symm)

/-- What R47 calls reserved are the words with one of its five properties. -/
theorem no_row_or_no_context_iff (nctx : Nat) (w : Word) :
    (∀ r ∈ opcodeMap, r.Matches w = false) ∨ nctx ≤ bits w 7 4 ↔ ReservedWord nctx w := by
  have hnone : (∀ r ∈ opcodeMap, r.Matches w = false) ↔ ¬ ∃ r ∈ opcodeMap, r.Matches w = true := by simp
  rw [← decode_error_iff, decode_error_iff_not_ok, legal_iff, hnone, not_and_or, Nat.not_lt]

/-! The payload length (30_encoding.md R45) -/

/-- A field that a mask keeps whole is the same in two words that agree under the mask. -/
theorem bits_eq_of_and_eq {w v m : Word} {hi lo : Nat} (h : w &&& m = v &&& m)
    (hm : m.extractLsb' lo (hi - lo + 1) = BitVec.allOnes _) : bits w hi lo = bits v hi lo := by
  have hfield : ∀ x : Word, bits x hi lo = ((x &&& m).extractLsb' lo (hi - lo + 1)).toNat := by
    intro x
    rw [BitVec.extractLsb'_and, hm, BitVec.and_allOnes, BitVec.extractLsb'_toNat, Nat.shiftRight_eq_div_pow, bits]
  rw [hfield, hfield, h]

/-- PLEN reads OP, and the length fields of that OP only. -/
theorem plen_eq_of_fields {w v : Word} (hop : opField w = opField v)
    (hinit : klenField w = klenField v ∧ ivlenField w = ivlenField v) (hxor : opField w = 1 → lenField w = lenField v) :
    plen w = plen v := by
  obtain ⟨hklen, hivlen⟩ := hinit
  unfold plen
  rw [← hop, hklen, hivlen]
  split_ifs with h0 h1
  · rfl
  · exact hxor h1
  · rfl

/-- Settles O5, from the fields that PLEN reads. -/
theorem payloadLengthIsAFunctionOfOpAndLengths : Obligations.PayloadLengthIsAFunctionOfOpAndLengths := by
  refine ⟨fun w h0 => if_pos h0, fun w h1 => ?_, fun w h0 h1 => (if_neg h0).trans (if_neg h1), fun w v h h1 => ?_,
    fun w v h => ?_, fun nctx w i => Machine.plen_of_decode⟩
  · have h0 : opField w ≠ 0 := by unfold opField; omega
    exact (if_neg h0).trans (if_pos h1)
  · exact plen_eq_of_fields (bits_eq_of_and_eq h rfl) ⟨bits_eq_of_and_eq h rfl, bits_eq_of_and_eq h rfl⟩
      fun h' => absurd h' h1
  · exact plen_eq_of_fields (bits_eq_of_and_eq h rfl) ⟨bits_eq_of_and_eq h rfl, bits_eq_of_and_eq h rfl⟩
      fun _ => bits_eq_of_and_eq h rfl

/-- Settles O6: the words are closed terms, which the decoder evaluates. -/
theorem exampleWordsDecode : Obligations.ExampleWordsDecode := by
  unfold Obligations.ExampleWordsDecode
  decide

end Sys2Proof

/-! What a command answers when its word is reserved, its lengths are not legal, or its context does not exist
(30_encoding.md R47), and the bytes of an `xorn` in order (R51). -/

namespace Sys2Proof.Machine

/-! One transaction (40_datapath.md R54) -/

/-- Settles O7: the step takes the head request, admission holds, and its word decodes. -/
theorem stepRunsTheDecodedCommand : Obligations.StepRunsTheDecodedCommand := by
  intro s t rest i hr ha hd
  rw [step_of_command hr, execute_of_decode ha hd]

/-- A response, with what is left on the port. -/
theorem State.respond_eq {s : State} {x : Request} {rest : List Request} (hr : s.requests = x :: rest) (st : Status)
    (data : List Byte) :
    s.respond st data = { slots := s.slots, requests := rest, responses := s.responses ++ [⟨st, data⟩] } := by
  rw [State.respond, hr, List.tail_cons]

/-- A word that does not decode is answered without any command being run. -/
theorem step_of_decode_error {s : State} {t : Transaction} {rest : List Request} {why : Illegal}
    (hr : s.requests = .command t :: rest) (ha : t.Admitted) (hd : decode s.nctx t.cmd = .error why) :
    step s = .next (s.respond .illegalCommand []) := by
  rw [step_of_command hr, execute, ifAdmitted_of _ ha, hd]
  rfl

/-- INIT with other lengths has no effect but its response (40_datapath.md R57). -/
theorem step_init_of_illegal_lengths {s : State} {t : Transaction} {rest : List Request} {e : Engine} {n k v : Nat}
    (hr : s.requests = .command t :: rest) (ha : t.Admitted) (hd : decode s.nctx t.cmd = .ok (Instr.init e n k v))
    (hkv : ¬ LegalPair e k v) : step s = .next (s.respond .invalidLength []) := by
  obtain ⟨κ, B, E, hE⟩ := exists_models e
  obtain ⟨slot, hs, hstep⟩ := step_command hr ha hd (by rwa [Instr.init_engine])
  have hillegal : ¬ legalLengths E.engine k v = true := by rwa [hE.engine_eq, legalLengths_iff]
  rw [Instr.init_ctx] at hs hstep
  rw [hstep, E.effect_init, if_neg hillegal, hE.answered_self hs]

/-- Settles O9: the two readings of "reserved" are one, and neither a reserved word nor an INIT with other lengths has
an effect but its response. -/
theorem reservedWordCompletesIllegal : Obligations.ReservedWordCompletesIllegal := by
  refine ⟨no_row_or_no_context_iff, fun s t rest hr ha hreserved => ?_, fun s t rest e n k v hr ha hd hkv => ?_⟩
  · obtain ⟨why, hd⟩ := (decode_error_iff ..).2 ((no_row_or_no_context_iff ..).1 hreserved)
    rw [step_of_decode_error hr ha hd, State.respond_eq hr]
  · rw [step_init_of_illegal_lengths hr ha hd hkv, State.respond_eq hr]

/-- Settles O30: the three generic commands look their context up before they do anything. -/
theorem missingContextIsIllegal : Obligations.MissingContextIsIllegal := by
  intro s i p hp hl hctx
  obtain ⟨e, n, k, v, rfl⟩ | ⟨e, n, l, rfl⟩ | ⟨e, n, rfl⟩ := instr_cases i <;>
    obtain ⟨κ, B, E, hE⟩ := exists_models e
  · rw [Instr.init_payloadLength] at hl
    rw [Instr.init_ctx] at hctx
    exact (hE.init_eq ..).trans (onSlot_of_missing _ hp hl hctx)
  · rw [Instr.xor_payloadLength] at hl
    rw [Instr.xor_ctx] at hctx
    exact (hE.xor_eq ..).trans (onSlot_of_missing _ hp hl hctx)
  · rw [Instr.release_payloadLength] at hl
    rw [Instr.release_ctx] at hctx
    exact (hE.release_eq ..).trans (onSlot_of_missing _ hp hl hctx)

/-! The pieces of `xorn` (30_encoding.md R51) -/

theorem xornPieces_flatten (fuel : Nat) (input : List Byte) : (xornPieces fuel input).flatten = input := by
  induction fuel generalizing input with
  | zero => simp [xornPieces]
  | succ fuel ih =>
    rw [xornPieces]
    split
    · simp
    · rw [List.flatten_cons, ih, List.take_append_drop]

/-- With as much fuel as bytes, the fuel does not run out: each full piece takes at least one byte. -/
theorem length_drop_maxXorLength_le {fuel : Nat} {input : List Byte} (h : input.length ≤ fuel + 1) :
    (input.drop maxXorLength).length ≤ fuel := by
  rw [List.length_drop, maxXorLength]
  omega

theorem length_le_of_mem_xornPieces {fuel : Nat} {input : List Byte} (h : input.length ≤ fuel) :
    ∀ a ∈ xornPieces fuel input, a.length ≤ maxXorLength := by
  induction fuel generalizing input with
  | zero =>
    obtain rfl := List.length_eq_zero_iff.1 (Nat.le_zero.1 h)
    simp [xornPieces]
  | succ fuel ih =>
    rw [xornPieces]
    split
    · simpa
    · exact List.forall_mem_cons.2 ⟨List.length_take_le .., ih (length_drop_maxXorLength_le h)⟩

theorem xornPieces_length {fuel : Nat} {input : List Byte} (h : input.length ≤ fuel) :
    (xornPieces fuel input).length = max 1 ((input.length + (2 ^ 24 - 2)) / (2 ^ 24 - 1)) := by
  induction fuel generalizing input with
  | zero =>
    obtain rfl := List.length_eq_zero_iff.1 (Nat.le_zero.1 h)
    rfl
  | succ fuel ih =>
    rw [xornPieces]
    split
    next hle =>
      rw [maxXorLength] at hle
      rw [List.length_singleton]
      omega
    next hgt =>
      rw [List.length_cons, ih (length_drop_maxXorLength_le h), List.length_drop]
      rw [maxXorLength] at hgt ⊢
      omega

/-! XOR commands in a row (30_encoding.md R50, 40_datapath.md R59) -/

section Streaming

variable {κ : Type} {B : Nat} {e : Engine} {E : EngineOps κ B}

@[simp] theorem xorCommand_payload (e : Engine) (n : Nat) (input : List Byte) :
    (xorCommand e n input).payload = input := rfl

/-- The transaction of the assembler's XOR decodes to it. -/
theorem decode_xorCommand {nctx n : Nat} {input : List Byte} (hc : n < nctx) (hn : n < 16)
    (hl : input.length < 2 ^ 24) :
    decode nctx (xorCommand e n input).cmd = .ok (Instr.xor e n input.length) :=
  decodeOfEncodeIsTheCommand _ _ ((Instr.wellFormed_xor_iff ..).2 ⟨hc, hn, hl⟩)

theorem xorCommand_admitted {nctx n : Nat} {input : List Byte} (hc : n < nctx) (hn : n < 16)
    (hl : input.length < 2 ^ 24) : (xorCommand e n input).Admitted := by
  rw [Transaction.Admitted, plen_of_decode (decode_xorCommand hc hn hl), Instr.xor_payloadLength, xorCommand_payload]

/-- An XOR command on a valid context passes its bytes through the datapath, and the commands behind it run from
there. -/
theorem EngineOps.Models.runCommands_xor_cons (hE : E.Models e) {s : State} {n : Nat} {slot : Slot} {input : List Byte}
    (ts : List Transaction) (hn : n < 16) (hs : s.slots[n]? = some slot) (hv : (E.get slot).valid = true)
    (hl : input.length < 2 ^ 24) {x : List Byte × Context κ B} (hx : (E.get slot).xorBytes E.refill input = x) :
    s.runCommands (xorCommand e n input :: ts) = (E.answered n slot (x.2, ⟨.ok, x.1⟩) s).runCommands ts := by
  have hc : n < s.nctx := (List.getElem?_eq_some_iff.1 hs).1
  obtain ⟨slot', hs', hstep⟩ := step_command
    (s := { s with requests := .command (xorCommand e n input) :: ts.map .command }) rfl
    (xorCommand_admitted hc hn hl) (decode_xorCommand hc hn hl) (by rwa [Instr.xor_engine])
  rw [Instr.xor_ctx] at hs' hstep
  obtain rfl := Option.some.inj (hs.symm.trans hs')
  rw [E.effect_xor, if_pos hv, xorCommand_payload, hx] at hstep
  exact (State.runCommands_cons hstep rfl).trans rfl

/-- XOR commands on one valid context are one pass of the datapath over all their bytes (40_datapath.md R59, R62). -/
theorem EngineOps.Models.runCommands_xor (hE : E.Models e) {n : Nat} (hn : n < 16) {pieces : List (List Byte)}
    (hl : ∀ a ∈ pieces, a.length < 2 ^ 24) {s : State} {slot : Slot} (hs : s.slots[n]? = some slot)
    (hv : (E.get slot).valid = true) {x : List Byte × Context κ B}
    (hx : (E.get slot).xorBytes E.refill pieces.flatten = x) :
    ∃ rs, s.runCommands (pieces.map (xorCommand e n)) =
        .next { slots := s.slots.set n (E.put x.2 slot), requests := [], responses := s.responses ++ rs } ∧
      (∀ r ∈ rs, r.status = .ok) ∧ (rs.map Response.data).flatten = x.1 := by
  induction pieces generalizing s slot x with
  | nil =>
    subst hx
    have hkept : s.slots.set n slot = s.slots := congrArg State.slots (State.putSlot_self hs)
    exact ⟨[], by simp [hE.put_get, hkept], by simp, by simp⟩
  | cons a pieces ih =>
    obtain ⟨ha, hl⟩ := List.forall_mem_cons.1 hl
    obtain ⟨y, hy⟩ : ∃ y, (E.get slot).xorBytes E.refill a = y := ⟨_, rfl⟩
    obtain ⟨z, hz⟩ : ∃ z, y.2.xorBytes E.refill pieces.flatten = z := ⟨_, rfl⟩
    have hvy : y.2.valid = true := by rw [← hy, Context.xorBytes_valid, hv]
    have hxyz : x = (y.1 ++ z.1, z.2) := by rw [← hx, List.flatten_cons, Context.xorBytes_append, hy, hz]
    obtain ⟨rs, hrun, hok, hdata⟩ := ih hl (E.answered_slot hs (y.2, ⟨.ok, y.1⟩)) (by rwa [hE.get_put]) (x := z)
      (by rw [hE.get_put, hz])
    refine ⟨⟨.ok, y.1⟩ :: rs, ?_, List.forall_mem_cons.2 ⟨rfl, hok⟩, by simp [hdata, hxyz]⟩
    rw [List.map_cons, hE.runCommands_xor_cons _ hn hs hv ha hy, hrun]
    simp [hE.put_put, hxyz]

end Streaming

/-- Every engine kind has its operations, and the upcoming keystream of its context is theirs. -/
theorem exists_models_upcoming (e : Engine) :
    ∃ (κ : Type) (B : Nat) (E : EngineOps κ B), E.Models e ∧
      ∀ slot : Slot, slot.upcoming e = (E.get slot).upcoming E.refill := by
  cases e
  · exact ⟨_, _, _, hc128Ops_models, fun _ => rfl⟩
  · exact ⟨_, _, _, hc256Ops_models, fun _ => rfl⟩
  · exact ⟨_, _, _, rabbitOps_models, fun _ => rfl⟩

/-- `xorn` on a valid context responds with its bytes XORed with the upcoming keystream. -/
theorem runCommands_xornCommands {s : State} {e : Engine} {n : Nat} {slot : Slot} (input : List Byte) (hn : n < 16)
    (hs : s.slots[n]? = some slot) (hv : slot.validOf e = true) :
    ∃ u rs, s.runCommands (xornCommands e n input) = .next u ∧ u.responses = s.responses ++ rs ∧
      (rs.map Response.data).flatten.length = input.length ∧
      ∀ k, k < input.length → (rs.map Response.data).flatten.getD k 0 = input.getD k 0 ^^^ slot.upcoming e k := by
  obtain ⟨κ, B, E, hE, hupcoming⟩ := exists_models_upcoming e
  have hshort : ∀ a ∈ xornPieces input.length input, a.length < 2 ^ 24 := fun a ha =>
    Nat.lt_of_le_of_lt (length_le_of_mem_xornPieces le_rfl a ha) (by decide)
  obtain ⟨rs, hrun, -, hdata⟩ := hE.runCommands_xor hn hshort hs (hE.valid_eq slot ▸ hv) rfl
  rw [xornPieces_flatten] at hdata
  refine ⟨_, rs, hrun, rfl, ?_, fun k hk => ?_⟩
  · rw [hdata, Context.xorBytes_length]
  · rw [hdata, hupcoming, Context.xorBytes_getD E.refill hE.block_pos input _ k hk]

/-- `ks` on a valid context responds with the upcoming keystream: zero bytes XORed with it. -/
theorem runCommands_ksCommands {s : State} {e : Engine} {n : Nat} {slot : Slot} (len : Nat) (hn : n < 16)
    (hs : s.slots[n]? = some slot) (hv : slot.validOf e = true) :
    ∃ u rs, s.runCommands (ksCommands e n len) = .next u ∧ u.responses = s.responses ++ rs ∧
      (rs.map Response.data).flatten = (List.range len).map (slot.upcoming e) := by
  obtain ⟨u, rs, hrun, hresponses, hlength, hdata⟩ := runCommands_xornCommands (List.replicate len 0#8) hn hs hv
  rw [List.length_replicate] at hlength hdata
  refine ⟨u, rs, hrun, hresponses, List.ext_getElem (by simpa using hlength) fun k hk _ => ?_⟩
  have hbyte := hdata k (hlength ▸ hk)
  rw [List.getD_eq_getElem _ _ hk] at hbyte
  simpa [hlength ▸ hk] using hbyte

/-- Settles O35: the pieces by induction on the fuel, the responses by induction on the pieces. -/
theorem xornPiecesCoverTheBytes : Obligations.XornPiecesCoverTheBytes :=
  ⟨fun input => ⟨xornPieces_flatten _ input, length_le_of_mem_xornPieces le_rfl, xornPieces_length le_rfl⟩,
    fun _ _ _ _ input hn hs hv => runCommands_xornCommands input hn hs hv,
    fun _ _ _ len _ hn hs hv => runCommands_ksCommands len hn hs hv⟩

end Sys2Proof.Machine

/-! The XOR datapath and the generic commands on every engine (40_datapath.md): admission and the one response (R52 to
R55), INIT, XOR and RELEASE (R56 to R60), and the laws of the keystream (R61 to R65). -/

namespace Sys2Proof.Machine

/-! One transaction, or a reset, from port to response (R52 to R55, 70_reset_and_hazards.md R124) -/

/-- Settles O8: admission comes before everything else. -/
theorem wrongPayloadLengthIsRefused : Obligations.WrongPayloadLengthIsRefused := by
  intro s t rest hr hlen
  rw [step_of_command hr, execute, ifAdmitted_of_not _ hlen]

/-- Settles O10: a reserved word is answered without a command, any other by the effect of its command. -/
theorem admittedTransactionAnswersOnce : Obligations.AdmittedTransactionAnswersOnce := by
  intro s t rest hr ha
  cases hd : decode s.nctx t.cmd with
  | error why => exact ⟨_, _, step_of_decode_error hr ha hd, rfl, by simp [hr], rfl⟩
  | ok i =>
    obtain ⟨κ, B, E, hE⟩ := exists_models i.engine
    obtain ⟨slot, -, hu⟩ := step_command hr ha hd hE
    exact ⟨_, _, hu, rfl, by simp [hr], (step_command_other_slots hr hd hu).1⟩

section ResponseData

variable {κ : Type} {B : Nat} (E : EngineOps κ B) (p : List Byte) (c : Context κ B)

theorem EngineOps.effect_xor_data_length {e : Engine} {n l : Nat}
    (h : (E.effect (Instr.xor e n l) p c).2.status = .ok) :
    (E.effect (Instr.xor e n l) p c).2.data.length = p.length := by
  rw [E.effect_xor] at h ⊢
  split_ifs at h ⊢
  · exact Context.xorBytes_length ..

theorem EngineOps.effect_data_eq_nil {i : Instr}
    (h : (¬ ∃ e n l, i = Instr.xor e n l) ∨ (E.effect i p c).2.status ≠ .ok) : (E.effect i p c).2.data = [] := by
  obtain ⟨e, n, k, v, rfl⟩ | ⟨e, n, l, rfl⟩ | ⟨e, n, rfl⟩ := instr_cases i
  · rw [E.effect_init]
    split <;> rfl
  · have hstatus := h.resolve_left (not_not_intro ⟨e, n, l, rfl⟩)
    rw [E.effect_xor] at hstatus ⊢
    split_ifs at hstatus ⊢
    · exact absurd rfl hstatus
    · rfl
  · rw [E.effect_release]
    split <;> rfl

end ResponseData

/-- Settles O13, by the effect of the command; a reserved word has no data and changes no context. -/
theorem onlyAnXorReturnsData : Obligations.OnlyAnXorReturnsData := by
  intro s u t rest r hr hu hresp
  obtain ⟨ha, ⟨why, hd, rfl⟩ | ⟨i, hd, -⟩⟩ := execute_cases ((step_of_command hr).symm.trans hu)
  · obtain rfl := List.singleton_inj.1 (List.append_cancel_left hresp)
    exact ⟨fun e n len hx => by simp [hd] at hx, fun _ => rfl, fun _ => rfl⟩
  · obtain ⟨κ, B, E, hE⟩ := exists_models i.engine
    obtain ⟨slot, hs, rfl⟩ := step_command_cases hr hd hu hE
    obtain rfl := List.singleton_inj.1 (List.append_cancel_left hresp)
    refine ⟨fun e n len hx hok => ?_, fun h => E.effect_data_eq_nil _ _ (h.imp_left fun hno => ?_), fun herr => ?_⟩
    · obtain rfl : i = Instr.xor e n len := Except.ok.inj (hd.symm.trans hx)
      rw [E.effect_xor_data_length _ _ hok, ha, plen_of_decode hd, Instr.xor_payloadLength]
    · rintro ⟨e, n, len, rfl⟩
      exact hno ⟨e, n, len, hd⟩
    · have hkept := (E.effect_ok_or_unchanged t.payload (E.get slot) i).resolve_left herr
      rw [E.answered_slots, hkept, hE.put_get]
      exact congrArg State.slots (State.putSlot_self hs)

/-- Settles O16: an admitted transaction in progress is abandoned, any other is refused. -/
theorem resetInvalidatesEveryContext : Obligations.ResetInvalidatesEveryContext := by
  intro s inProgress rest hr
  rw [step_of_reset hr]
  refine ⟨fun ha => ⟨_, executeReset_of s ha, hostReset_allInvalid s, hostReset_nctx s, by simp [hr], rfl⟩, ?_⟩
  rintro t rfl ha
  exact ifAdmitted_of_not _ ha

/-! The generic commands, one lemma per outcome (R57, R58, R60) -/

section Outcomes

variable {κ : Type} {B : Nat} {e : Engine} {E : EngineOps κ B} {s : State} {n : Nat} {slot : Slot}

theorem EngineOps.Models.exec_init (hE : E.Models e) {key iv : List Byte} (hp : s.payload? = some (key ++ iv))
    (hs : s.slots[n]? = some slot) (hlegal : LegalPair e key.length iv.length) :
    exec (Instr.init e n key.length iv.length) s =
      .next (E.answered n slot (E.constructed n (E.get slot) key iv, ⟨.ok, []⟩) s) := by
  rw [hE.init_eq, initGeneric_of hp List.length_append hs, hE.engine_eq, if_pos ((legalLengths_iff ..).2 hlegal),
    memRead_key, memRead_iv]
  rfl

theorem exec_init_of_illegal_lengths {k v : Nat} {p : List Byte} (hp : s.payload? = some p) (hl : p.length = k + v)
    (hs : s.slots[n]? = some slot) (hillegal : ¬ LegalPair e k v) :
    exec (Instr.init e n k v) s = .next (s.respond .invalidLength []) := by
  obtain ⟨κ, B, E, hE⟩ := exists_models e
  rw [hE.init_eq, initGeneric_of hp hl hs, hE.engine_eq, if_neg (mt (legalLengths_iff ..).1 hillegal)]

theorem EngineOps.Models.exec_xor (hE : E.Models e) {src : List Byte} (hp : s.payload? = some src)
    (hs : s.slots[n]? = some slot) (hv : slot.validOf e = true) :
    exec (Instr.xor e n src.length) s =
      .next (E.answered n slot (((E.get slot).xorBytes E.refill src).2, ⟨.ok, ((E.get slot).xorBytes E.refill src).1⟩)
        s) := by
  rw [hE.xor_eq, xorGeneric_of hp rfl hs, if_pos (hE.valid_eq slot ▸ hv)]
  rfl

theorem exec_xor_of_invalid {p : List Byte} (hp : s.payload? = some p) (hs : s.slots[n]? = some slot)
    (hv : slot.validOf e = false) : exec (Instr.xor e n p.length) s = .next (s.respond .noContext []) := by
  obtain ⟨κ, B, E, hE⟩ := exists_models e
  rw [hE.xor_eq, xorGeneric_of hp rfl hs, if_neg (by simpa [hE.valid_eq] using hv)]

theorem EngineOps.Models.exec_release (hE : E.Models e) (hp : s.payload? = some []) (hs : s.slots[n]? = some slot)
    (hv : slot.validOf e = true) :
    exec (Instr.release e n) s = .next (E.answered n slot (E.destroyed n (E.get slot), ⟨.ok, []⟩) s) := by
  rw [hE.release_eq, releaseGeneric_of hp rfl hs, if_pos (hE.valid_eq slot ▸ hv)]
  rfl

theorem exec_release_of_invalid (hp : s.payload? = some []) (hs : s.slots[n]? = some slot)
    (hv : slot.validOf e = false) : exec (Instr.release e n) s = .next (s.respond .noContext []) := by
  obtain ⟨κ, B, E, hE⟩ := exists_models e
  rw [hE.release_eq, releaseGeneric_of hp rfl hs, if_neg (by simpa [hE.valid_eq] using hv)]

/-- An XOR of no bytes only responds (R63). -/
theorem exec_empty_xor (hp : s.payload? = some []) (hs : s.slots[n]? = some slot) (hv : slot.validOf e = true) :
    exec (Instr.xor e n 0) s = .next (s.respond .ok []) := by
  obtain ⟨κ, B, E, hE⟩ := exists_models e
  exact (hE.exec_xor hp hs hv).trans (congrArg _ (hE.answered_self hs ⟨.ok, []⟩))

end Outcomes

/-- Settles O21, from the legal outcome of INIT. -/
theorem hc128InitConstructsTheCipher : Obligations.Hc128InitConstructsTheCipher := by
  intro s n key iv slot hp hk hv hs
  have hexec := hc128Ops_models.exec_init hp hs (by rw [hk, hv]; rfl)
  rw [hk, hv] at hexec
  exact ⟨_, hexec, rfl, rfl, rfl⟩

/-- Settles O22, from the legal outcome of INIT. -/
theorem hc256InitConstructsTheCipher : Obligations.Hc256InitConstructsTheCipher := by
  intro s n key iv slot hp hk hv hs
  have hexec := hc256Ops_models.exec_init hp hs (by rw [hk, hv]; rfl)
  rw [hk, hv] at hexec
  exact ⟨_, hexec, rfl, rfl, rfl⟩

/-- Settles O23, from the legal outcome of INIT; the setup it runs tests the length of the IV (43_rabbit.md R104). -/
theorem rabbitInitConstructsTheCipher : Obligations.RabbitInitConstructsTheCipher := by
  intro s n key iv slot hp hk hv hs
  have hexec := rabbitOps_models.exec_init hp hs (by simpa [LegalPair, hk] using hv)
  rw [hk] at hexec
  exact ⟨_, hexec, rfl, rfl, fun h0 => if_neg (by omega), fun h8 => if_pos h8⟩

/-- Settles O24: the three engines fail alike. -/
theorem initWithOtherLengthsFailsWhole : Obligations.InitWithOtherLengthsFailsWhole :=
  fun _ _ _ _ _ _ hp hl hs =>
    ⟨exec_init_of_illegal_lengths (e := .hc128) hp hl hs, exec_init_of_illegal_lengths (e := .hc256) hp hl hs,
      exec_init_of_illegal_lengths (e := .rabbit) hp hl hs⟩

/-- Settles O28, by the two outcomes of RELEASE, for each engine. -/
theorem releaseDestroysOnlyItsCipher : Obligations.ReleaseDestroysOnlyItsCipher := by
  intro s n slot hp hs
  exact ⟨fun hv => ⟨_, rfl, hc128Ops_models.exec_release hp hs hv⟩, exec_release_of_invalid (e := .hc128) hp hs,
    fun hv => ⟨_, rfl, hc256Ops_models.exec_release hp hs hv⟩, exec_release_of_invalid (e := .hc256) hp hs,
    fun hv => ⟨_, rfl, rabbitOps_models.exec_release hp hs hv⟩, exec_release_of_invalid (e := .rabbit) hp hs⟩

/-- Settles O29: VALID is tested before the datapath runs, in the three engines. -/
theorem xorNeedsACipher : Obligations.XorNeedsACipher :=
  fun _ _ _ _ hp hs => ⟨exec_xor_of_invalid (e := .hc128) hp hs, exec_xor_of_invalid (e := .hc256) hp hs,
    exec_xor_of_invalid (e := .rabbit) hp hs⟩

/-- Settles O31: the datapath over no bytes returns the context it was given, in the three engines. -/
theorem emptyXorChangesNothing : Obligations.EmptyXorChangesNothing :=
  fun _ _ _ hp hs => ⟨exec_empty_xor (e := .hc128) hp hs, exec_empty_xor (e := .hc256) hp hs,
    exec_empty_xor (e := .rabbit) hp hs⟩

end Sys2Proof.Machine

/-! The streaming XOR: each command by the keystream it uses and the context it leaves (40_datapath.md R58, R59, R64),
and commands in a row (R61, R62, R65). -/

namespace Sys2Proof.Machine

/-! How far an XOR advances its context (70_reset_and_hazards.md R131) -/

section Advance

variable {κ : Type} {B : Nat} (f : κ → Vector Byte B × κ)

theorem afterRefills_succ (r : Nat) (core : κ) : afterRefills f (r + 1) core = afterRefills f r (f core).2 :=
  Function.iterate_succ_apply ..

theorem refillsFor_zero (hB : 0 < B) (ksn : Nat) : refillsFor B ksn 0 = 0 := by
  rw [refillsFor, Nat.zero_sub, Nat.zero_add]
  exact Nat.div_eq_of_lt (by omega)

/-- With nothing pending, the next byte takes a refill, and leaves the rest of that block pending. -/
theorem refillsFor_of_empty (hB : 0 < B) (len : Nat) : refillsFor B 0 (len + 1) = refillsFor B (B - 1) len + 1 := by
  have hmore : len + 1 - 0 + (B - 1) = len + B := by omega
  rw [refillsFor, refillsFor, hmore, Nat.add_div_right _ hB]
  by_cases hlen : B - 1 ≤ len
  · rw [Nat.sub_add_cancel hlen]
  · rw [Nat.sub_eq_zero_of_le (by omega), Nat.div_eq_of_lt (by omega), Nat.div_eq_of_lt (by omega)]

/-- With a byte pending, the next byte takes no refill. -/
theorem refillsFor_of_pending {ksn : Nat} (hksn : 0 < ksn) (len : Nat) :
    refillsFor B ksn (len + 1) = refillsFor B (ksn - 1) len := by
  have hrest : len + 1 - ksn = len - (ksn - 1) := by omega
  rw [refillsFor, refillsFor, hrest]

variable {f} {c d : Context κ B} {len : Nat}

theorem Context.AdvancedBy.zero (hB : 0 < B) (f : κ → Vector Byte B × κ) (c : Context κ B) :
    Context.AdvancedBy f 0 c c := by
  rw [Context.AdvancedBy, refillsFor_zero hB]
  exact ⟨rfl, rfl, by simp, fun _ => rfl, fun h => absurd h (Nat.lt_irrefl 0)⟩

/-- A first byte that takes a refill: the refills counted are the one it takes and those of the bytes behind it. -/
theorem Context.AdvancedBy.of_empty (hB : 0 < B) (hksn : c.ksn.val = 0)
    (h : Context.AdvancedBy f len (c.nextByte f).2 d) : Context.AdvancedBy f (len + 1) c d := by
  unfold Context.nextByte at h
  rw [Context.refilled_of_zero f hksn] at h
  obtain ⟨hvalid, hcore, hd, hsame, hblock⟩ := h
  simp only [Context.consume_valid, Context.consume_core, Context.consume_ksb, Context.consume_ksn, Fin.val_last]
    at hvalid hcore hd hsame hblock
  rw [Context.AdvancedBy, hksn, refillsFor_of_empty hB]
  refine ⟨hvalid, hcore, ?_, fun h => absurd h (Nat.succ_ne_zero _), fun _ => ?_⟩
  · rw [Nat.succ_mul]
    omega
  · rw [Nat.add_sub_cancel]
    obtain hr | hr := Nat.eq_zero_or_pos (refillsFor B (B - 1) len)
    · rw [hsame hr, hr]
      rfl
    · rw [hblock hr, ← afterRefills_succ, Nat.sub_add_cancel hr]

/-- A first byte that is pending: it takes no refill. -/
theorem Context.AdvancedBy.of_pending (hksn : 0 < c.ksn.val) (h : Context.AdvancedBy f len (c.nextByte f).2 d) :
    Context.AdvancedBy f (len + 1) c d := by
  unfold Context.nextByte at h
  rw [Context.refilled_of_pos f hksn] at h
  obtain ⟨hvalid, hcore, hd, hsame, hblock⟩ := h
  simp only [Context.consume_valid, Context.consume_core, Context.consume_ksb, Context.consume_ksn]
    at hvalid hcore hd hsame hblock
  rw [Context.AdvancedBy, refillsFor_of_pending hksn]
  exact ⟨hvalid, hcore, by omega, hsame, hblock⟩

/-- The datapath advances its context by its bytes, by induction on them. -/
theorem Context.xorBytes_advancedBy (hB : 0 < B) (src : List Byte) (c : Context κ B) :
    Context.AdvancedBy f src.length c (c.xorBytes f src).2 := by
  induction src generalizing c with
  | nil => exact .zero hB f c
  | cons b bs ih =>
    obtain hksn | hksn := Nat.eq_zero_or_pos c.ksn.val
    · exact .of_empty hB hksn (ih _)
    · exact .of_pending hksn (ih _)

end Advance

section Streams

variable {κ : Type} {B : Nat} {e : Engine} {E : EngineOps κ B} {s : State} {n : Nat} {slot : Slot}

/-- XOR on a valid context, for every engine (R58, R59, R64). -/
theorem EngineOps.Models.exec_xor_streams (hE : E.Models e) {src : List Byte} (hp : s.payload? = some src)
    (hs : s.slots[n]? = some slot) (hv : slot.validOf e = true) :
    ∃ c data, exec (Instr.xor e n src.length) s = .next (E.answered n slot (c, ⟨.ok, data⟩) s) ∧
      data.length = src.length ∧
      (∀ k, k < src.length → data.getD k 0 = src.getD k 0 ^^^ (E.get slot).upcoming E.refill k) ∧
      Context.AdvancedBy E.refill src.length (E.get slot) c :=
  ⟨_, _, hE.exec_xor hp hs hv, Context.xorBytes_length .., Context.xorBytes_getD E.refill hE.block_pos src _,
    Context.xorBytes_advancedBy hE.block_pos src _⟩

end Streams

/-- Settles O25, from the datapath of every engine. -/
theorem hc128XorStreamsTheKeystream : Obligations.Hc128XorStreamsTheKeystream :=
  fun _ _ _ _ hp hs hv => hc128Ops_models.exec_xor_streams hp hs hv

/-- Settles O26, from the datapath of every engine. -/
theorem hc256XorStreamsTheKeystream : Obligations.Hc256XorStreamsTheKeystream :=
  fun _ _ _ _ hp hs hv => hc256Ops_models.exec_xor_streams hp hs hv

/-- Settles O27, from the datapath of every engine. -/
theorem rabbitXorStreamsTheKeystream : Obligations.RabbitXorStreamsTheKeystream :=
  fun _ _ _ _ hp hs hv => rabbitOps_models.exec_xor_streams hp hs hv

/-- Settles O32: either list is one pass of the datapath over the same bytes. -/
theorem chunkingIsInvisible : Obligations.ChunkingIsInvisible := by
  intro s e n slot as bs hn hs hv hflat has hbs
  obtain ⟨κ, B, E, hE⟩ := exists_models e
  rw [hE.valid_eq] at hv
  obtain ⟨ra, hruna, hoka, hdataa⟩ := hE.runCommands_xor hn has hs hv rfl
  obtain ⟨rb, hrunb, hokb, hdatab⟩ := hE.runCommands_xor hn hbs hs hv (x := (E.get slot).xorBytes E.refill as.flatten)
    (by rw [hflat])
  exact ⟨_, _, ra, rb, hruna, hrunb, rfl, rfl, rfl, List.forall_mem_append.2 ⟨hoka, hokb⟩, hdataa.trans hdatab.symm⟩

/-! Lists of commands, one after the other (20_memory.md R36) -/

/-- The block looks at no request behind the one it answers, which leaves the port. -/
theorem step_command_behind {s u : State} {t : Transaction} {rest : List Request}
    (h : step { s with requests := .command t :: rest } = .next u) (rest' : List Request) :
    u.requests = rest ∧
      step { s with requests := .command t :: rest' } = .next { u with requests := rest' } := by
  obtain ⟨ha, ⟨why, hd, rfl⟩ | ⟨i, hd, -⟩⟩ := execute_cases ((step_of_command rfl).symm.trans h)
  · exact ⟨rfl, step_of_decode_error rfl ha hd⟩
  · obtain ⟨κ, B, E, hE⟩ := exists_models i.engine
    obtain ⟨slot, hs, rfl⟩ := step_command_cases rfl hd h hE
    obtain ⟨slot', hs', hstep⟩ := step_command (s := { s with requests := .command t :: rest' }) rfl ha hd hE
    obtain rfl := Option.some.inj (hs.symm.trans hs')
    exact ⟨rfl, hstep⟩

theorem State.runCommands_cons_cases {s u : State} {t : Transaction} {ts : List Transaction}
    (h : s.runCommands (t :: ts) = .next u) :
    ∃ v, step { s with requests := .command t :: ts.map .command } = .next v ∧ v.runCommands ts = .next u := by
  cases hv : step { s with requests := .command t :: ts.map .command } with
  | next v =>
    obtain ⟨hreq, -⟩ := step_command_behind hv []
    exact ⟨v, rfl, (State.runCommands_cons hv hreq).symm.trans h⟩
  | fault r => exact nomatch r
  | refused r =>
    have hcore : core.step { s with requests := .command t :: ts.map .command } = .refused r := hv
    simp [State.runCommands, Host.Core.run, hcore] at h

/-- Commands behind others run from the state those leave. -/
theorem State.runCommands_append {s u : State} {ts : List Transaction} (ts' : List Transaction)
    (h : s.runCommands ts = .next u) : s.runCommands (ts ++ ts') = u.runCommands ts' := by
  induction ts generalizing s with
  | nil =>
    cases h
    rfl
  | cons t ts ih =>
    obtain ⟨v, hv, hrun⟩ := State.runCommands_cons_cases h
    obtain ⟨-, hstep⟩ := step_command_behind hv ((ts ++ ts').map .command)
    exact (State.runCommands_cons hstep rfl).trans (ih hrun)

/-! From INIT to the keystream (R57, R61) -/

section Init

variable {κ : Type} {B : Nat} {e : Engine} {E : EngineOps κ B} {n : Nat} {key iv : List Byte}

theorem LegalPair.lt {k v : Nat} (h : LegalPair e k v) : k < 256 ∧ v < 256 := by
  cases e <;> simp only [LegalPair, Prod.mk.injEq] at h <;> omega

/-- The transaction of the assembler's INIT decodes to it. -/
theorem decode_initCommand {nctx : Nat} (hc : n < nctx) (hn : n < 16) (hlegal : LegalPair e key.length iv.length) :
    decode nctx (initCommand e n key iv).cmd = .ok (Instr.init e n key.length iv.length) :=
  decodeOfEncodeIsTheCommand _ _ ((Instr.wellFormed_init_iff ..).2 ⟨hc, hn, hlegal.lt⟩)

theorem initCommand_admitted {nctx : Nat} (hc : n < nctx) (hn : n < 16)
    (hlegal : LegalPair e key.length iv.length) : (initCommand e n key iv).Admitted := by
  rw [Transaction.Admitted, plen_of_decode (decode_initCommand hc hn hlegal), Instr.init_payloadLength]
  exact List.length_append

theorem EngineOps.Models.step_init (hE : E.Models e) {s : State} {slot : Slot} {rest : List Request}
    (hr : s.requests = .command (initCommand e n key iv) :: rest) (hn : n < 16) (hs : s.slots[n]? = some slot)
    (hlegal : LegalPair e key.length iv.length) :
    step s = .next (E.answered n slot (E.constructed n (E.get slot) key iv, ⟨.ok, []⟩) s) := by
  have hc : n < s.nctx := (List.getElem?_eq_some_iff.1 hs).1
  rw [step_of_command hr, execute_of_decode (initCommand_admitted hc hn hlegal) (decode_initCommand hc hn hlegal)]
  exact hE.exec_init (State.payload?_of_requests hr) hs hlegal

/-- INIT, and XOR commands behind it: the context is the constructed one, moved on by their bytes. -/
theorem EngineOps.Models.runCommands_init_xor (hE : E.Models e) {s : State} {slot : Slot} {chunks : List (List Byte)}
    (hn : n < 16) (hs : s.slots[n]? = some slot) (hlegal : LegalPair e key.length iv.length)
    (hchunks : ∀ a ∈ chunks, a.length < 2 ^ 24) {c : Context κ B} (hc : E.constructed n (E.get slot) key iv = c) :
    ∃ u rs, s.runCommands (initCommand e n key iv :: chunks.map (xorCommand e n)) = .next u ∧
      u.responses = s.responses ++ rs ∧ (∀ r ∈ rs, r.status = .ok) ∧
      u.slots[n]? = some (E.put (c.xorBytes E.refill chunks.flatten).2 slot) := by
  subst hc
  have hinit := E.answered_slot hs (E.constructed n (E.get slot) key iv, ⟨.ok, []⟩)
  obtain ⟨rs, hrun, hok, -⟩ := hE.runCommands_xor hn hchunks hinit (by rw [hE.get_put]; rfl) (by rw [hE.get_put])
  have hfirst := hE.step_init
    (s := { s with requests := .command (initCommand e n key iv) :: (chunks.map (xorCommand e n)).map .command })
    rfl hn hs hlegal
  refine ⟨_, ⟨.ok, []⟩ :: rs, (State.runCommands_cons hfirst rfl).trans hrun, by simp,
    List.forall_mem_cons.2 ⟨rfl, hok⟩, ?_⟩
  rw [List.getElem?_set_self (List.getElem?_eq_some_iff.1 hinit).1, hE.put_put]

/-- Nothing is pending after INIT, so the keystream starts with the first refill. -/
theorem EngineOps.constructed_upcoming (E : EngineOps κ B) (n : Nat) (c : Context κ B) (key iv : List Byte) (k : Nat) :
    (E.constructed n c key iv).upcoming E.refill k = keystream E.refill (E.setup key iv) k := by
  simp [Context.upcoming]

end Init

/-- Settles O33: INIT constructs the context, the chunks move its keystream on by their bytes, and the last XOR uses
what is upcoming then. -/
theorem keystreamLaw : Obligations.KeystreamLaw := by
  intro s e n key iv src chunks hlt hn hlegal hchunks hsrc
  obtain ⟨κ, B, E, hE⟩ := exists_models e
  have hs : s.slots[n]? = some s.slots[n] := List.getElem?_eq_getElem hlt
  obtain ⟨c, hc⟩ : ∃ c, E.constructed n (E.get s.slots[n]) key iv = c := ⟨_, rfl⟩
  obtain ⟨d, hd⟩ : ∃ d, (c.xorBytes E.refill chunks.flatten).2 = d := ⟨_, rfl⟩
  obtain ⟨u, rs, hrun, hresp, hok, hslot⟩ := hE.runCommands_init_xor hn hs hlegal hchunks hc
  have hv : d.valid = true := by rw [← hd, Context.xorBytes_valid, ← hc, EngineOps.constructed_valid]
  have hupcoming (k : Nat) : d.upcoming E.refill k = KS e key iv (chunks.flatten.length + k) := by
    rw [← hd, Context.xorBytes_upcoming E.refill hE.block_pos, ← hc, E.constructed_upcoming, hE.ks_eq]
  have hlast := hE.runCommands_xor_cons [] hn hslot (by rwa [hE.get_put, hd]) hsrc (by rw [hE.get_put, hd])
  refine ⟨_, rs, (d.xorBytes E.refill src).1,
    (State.runCommands_append _ hrun).trans (hlast.trans (State.runCommands_nil _)), ?_, hok,
    Context.xorBytes_length .., fun k hk => ?_⟩
  · rw [← hresp]
    rfl
  · rw [Context.xorBytes_getD E.refill hE.block_pos src d k hk, hupcoming]

/-- Settles O34, from O33: both texts meet the same keystream bytes, which cancel. -/
theorem xorIsSelfInverse : Obligations.XorIsSelfInverse := by
  intro s s' e n n' key iv pre pre' text hc hn hc' hn' hlegal hpre hpre' htext
  obtain ⟨u, rs, cipher, hrun, hresp, -, hlen, hbytes⟩ :=
    keystreamLaw s e n key iv text [pre] hc hn hlegal (by simpa using hpre) htext
  obtain ⟨u', rs', data, hrun', hresp', -, hlen', hbytes'⟩ :=
    keystreamLaw s' e n' key iv cipher [pre'] hc' hn' hlegal (by simpa [hpre'] using hpre) (by rwa [hlen])
  have hdata : data = text := by
    refine List.ext_getElem (hlen'.trans hlen) fun k hk hk' => ?_
    have hback := hbytes' k (by omega)
    rw [hbytes k hk', List.flatten_singleton, List.flatten_singleton, hpre', BitVec.xor_assoc, BitVec.xor_self,
      BitVec.xor_zero] at hback
    rwa [List.getD_eq_getElem _ _ hk, List.getD_eq_getElem _ _ hk'] at hback
  exact ⟨u, rs, cipher, hrun, hresp, u', rs', hrun', hdata ▸ hresp'⟩

end Sys2Proof.Machine

/-! The HC-128 engine (41_hc128.md): the words it computes with, the expansion, one step by the words it reads, and the
warm-up. -/

namespace Sys2Proof.Machine

/-! Rotations by bit position (00_scope.md R8), and the bytes of a word (R10) -/

theorem getLsbD_rotr (x : Word) {n b : Nat} (hn : n < 32) (hb : b < 32) :
    (rotr x n).getLsbD b = x.getLsbD ((b + n) % 32) := by
  rw [rotr, BitVec.getLsbD_or, BitVec.getLsbD_ushiftRight, BitVec.getLsbD_shiftLeft]
  by_cases h : b + n < 32
  · rw [Nat.mod_eq_of_lt h, Nat.add_comm n b]
    simp [show b < 32 - n by omega]
  · rw [show (b + n) % 32 = b - (32 - n) by omega, BitVec.getLsbD_of_ge x _ (show 32 ≤ n + b by omega)]
    simp [hb, show 32 - n ≤ b by omega]

/-- A rotation to the left is the one to the right by the rest of the word. -/
theorem rotl_eq_rotr (x : Word) {n : Nat} (hn : n ≤ 32) : rotl x n = rotr x (32 - n) := by
  rw [rotl, rotr, Nat.sub_sub_self hn]
  exact BitVec.or_comm ..

theorem getLsbD_rotl (x : Word) {n b : Nat} (hn : 0 < n) (hn' : n < 32) (hb : b < 32) :
    (rotl x n).getLsbD b = x.getLsbD ((b + 32 - n) % 32) := by
  rw [rotl_eq_rotr x hn'.le, getLsbD_rotr x (by omega) hb, ← Nat.add_sub_assoc hn'.le]

theorem bytesLe_getD (w : Word) {b : Nat} (hb : b < 4) : (bytesLe w).toList.getD b 0 = w.extractLsb' (8 * b) 8 := by
  interval_cases b <;> rfl

theorem bytesLe_getD_toNat (w : Word) {b : Nat} (hb : b < 4) :
    ((bytesLe w).toList.getD b 0).toNat = w.toNat / 256 ^ b % 256 := by
  rw [bytesLe_getD w hb, BitVec.extractLsb'_toNat, Nat.shiftRight_eq_div_pow, Nat.pow_mul]

/-- Bit `i` of `LE32` is in byte `i / 8`: the other three are zero there. -/
theorem getLsbD_le32 (s : List Byte) (o : Nat) {i : Nat} (hi : i < 32) :
    (le32 s o).getLsbD i = (byteAt s (o + i / 8)).getLsbD (i % 8) := by
  obtain ⟨b, r, hr, rfl⟩ : ∃ b r, r < 8 ∧ 8 * b + r = i := ⟨i / 8, i % 8, by omega, by omega⟩
  have hb : b < 4 := by omega
  rw [show (8 * b + r) / 8 = b by omega, show (8 * b + r) % 8 = r by omega]
  interval_cases b <;> simp (disch := omega) [le32, BitVec.getLsbD_of_ge, decide_eq_true]

theorem le32_bytesLe (w : Word) : le32 (bytesLe w).toList 0 = w := by
  refine BitVec.eq_of_getLsbD_eq fun i hi => ?_
  have hbyte : byteAt (bytesLe w).toList (i / 8) = w.extractLsb' (8 * (i / 8)) 8 := bytesLe_getD w (by omega)
  rw [getLsbD_le32 _ _ hi, Nat.zero_add, hbyte, BitVec.getLsbD_extractLsb', Nat.div_add_mod]
  simp [Nat.mod_lt]

/-- Settles O47: either rotation moves every bit, and the functions are their own equations (R66 to R69). -/
theorem hcFunctionsRotateCircularly : Obligations.HcFunctionsRotateCircularly :=
  ⟨fun x _ _ hn hn' hb => ⟨getLsbD_rotr x hn' hb, getLsbD_rotl x hn hn' hb⟩, fun _ => ⟨rfl, rfl⟩,
    fun _ _ _ => ⟨BitVec.toNat_add .., BitVec.toNat_add ..⟩⟩

/-- Settles O46: the bytes of a word are its digits to base 256, and `LE32` puts them together again. -/
theorem refillSerialisesLittleEndian : Obligations.RefillSerialisesLittleEndian :=
  ⟨fun w => ⟨fun _ => bytesLe_getD_toNat w, le32_bytesLe w⟩, fun _ => rfl, fun _ => rfl⟩

/-! The expansion (R72, R73, R74) -/

/-- Two times eight words, loaded one after the other (R72; 42_hc256.md R87). -/
theorem getD_append_of_range_eight (f g : Nat → Word) {i : Nat} (hi : i < 8) :
    (((List.range 8).map f).toArray ++ ((List.range 8).map g).toArray).getD i 0 = f i ∧
      (((List.range 8).map f).toArray ++ ((List.range 8).map g).toArray).getD (8 + i) 0 = g i := by
  simp [Array.getD_eq_getD_getElem?, List.getElem?_append, hi]

theorem load128_getD (key iv : List Byte) {i : Nat} (hi : i < 8) :
    (load128 key iv).getD i 0 = le32 key (4 * i % 16) ∧ (load128 key iv).getD (8 + i) 0 = le32 iv (4 * i % 16) :=
  getD_append_of_range_eight (fun i => le32 key (4 * i % 16)) (fun i => le32 iv (4 * i % 16)) hi

/-- Every word behind the loaded ones is given by the recurrence (R73; 42_hc256.md R88). -/
theorem expand_recurrence (n : Nat) (w : Array Word) (hw : 16 ≤ w.size) {i : Nat} (hi : w.size ≤ i)
    (hin : i < w.size + n) :
    (expand n w).getD i 0 = f2 ((expand n w).getD (i - 2) 0) + (expand n w).getD (i - 7) 0
      + f1 ((expand n w).getD (i - 15) 0) + (expand n w).getD (i - 16) 0 + BitVec.ofNat 32 i := by
  induction n generalizing w with
  | zero => omega
  | succ n ih =>
    obtain rfl | hlt := hi.eq_or_lt
    · rw [expand_at_size, expand_of_lt, expand_of_lt, expand_of_lt, expand_of_lt, expandWord] <;> omega
    · exact ih (w.push (expandWord w)) (by simp; omega) (by simpa using hlt) (by simp; omega)

theorem tableFrom_getElem (k : Nat) (w : Array Word) (start : Nat) {i : Nat} (h : i < 2 ^ k) :
    (tableFrom k w start)[i] = w.getD (start + i) 0 := Vector.getElem_ofFn h

/-- Settles O40: the loaded words stay, every later one is the recurrence's, and the tables are two pieces of them. -/
theorem hc128ExpansionFillsTheTables : Obligations.Hc128ExpansionFillsTheTables := by
  intro key iv
  have hsize := load128_size key iv
  refine ⟨by rw [expansion128, expand_size, hsize], fun i hi => ?_, fun i hi hlt => ?_, fun i h => ?_⟩
  · obtain ⟨hkey, hiv⟩ := load128_getD key iv hi
    exact ⟨(expand_of_lt _ _ (by omega)).trans hkey, (expand_of_lt _ _ (by omega)).trans hiv⟩
  · exact expand_recurrence 1264 _ hsize.ge (by omega) (by omega)
  · exact ⟨tableFrom_getElem 9 _ 256 h, tableFrom_getElem 9 _ 768 h⟩

/-! Table words at positions given as numbers -/

theorem Table.getElem_mod_eq_read {k m : Nat} (hm : m = 2 ^ k) (t : Table k) (a : Nat) (h : a % m < 2 ^ k) :
    t[a % m]'h = t.read (BitVec.ofNat k a) := by
  subst hm
  exact (t.read_eq _ a (BitVec.toNat_ofNat a k)).symm

theorem Table.read_write {k : Nat} (t : Table k) (j a : BitVec k) (v : Word) :
    (t.write j v).read a = if a = j then v else t.read a := by
  simp only [Table.read, Table.getElem_write, BitVec.toNat_inj]

theorem Table.getElem_write_ofNat {k j a : Nat} (t : Table k) (v : Word) (hj : j < 2 ^ k) (ha : a < 2 ^ k) :
    (t.write (BitVec.ofNat k j) v)[a] = if a = j then v else t[a] := by
  rw [Table.getElem_write, BitVec.toNat_ofNat, Nat.mod_eq_of_lt hj]

theorem Table.read_write_ofNat {k j a : Nat} (t : Table k) (v : Word) (hj : j < 2 ^ k) (ha : a < 2 ^ k) :
    (t.write (BitVec.ofNat k j) v).read (BitVec.ofNat k a) = if a = j then v else t.read (BitVec.ofNat k a) := by
  simp only [Table.read, BitVec.toNat_ofNat, Nat.mod_eq_of_lt ha, Table.getElem_write_ofNat t v hj ha]

theorem ofNat_nine_mod (a : Nat) : BitVec.ofNat 9 (a % 512) = BitVec.ofNat 9 a := BitVec.eq_of_toNat_eq (by simp)

/-- `a ⊟ d` of 00_scope.md R9, with the modulus added first. -/
theorem ofNat_nine_sub {d : Nat} (a : Nat) (hd : d < 512) :
    BitVec.ofNat 9 (a + 512 - d) = BitVec.ofNat 9 a - BitVec.ofNat 9 d := by
  have hmod : BitVec.ofNat 9 (a + 512) = BitVec.ofNat 9 a := BitVec.eq_of_toNat_eq (by simp)
  rw [← BitVec.ofNat_sub_ofNat_of_le _ _ hd (by omega), hmod]

/-! One step (R77), on the table `t` it uses with the `g` of that table, and with the other table for `h` -/

/-- The word a step puts at position `j`. -/
def updated128 (g : Word → Word → Word → Word) (t : Table 9) (j : BitVec 9) : Word :=
  t.read j + g (t.read (j - 3)) (t.read (j - 10)) (t.read (j - 511))

/-- The output word of the step. -/
def output128 (g : Word → Word → Word → Word) (t other : Table 9) (j : BitVec 9) : Word :=
  h128 other (t.read (j - 12)) ^^^ updated128 g t j

theorem h128_eq (t : Table 9) (x : Word) :
    h128 t x = t.read (BitVec.ofNat 9 (x.toNat % 256)) + t.read (BitVec.ofNat 9 (256 + x.toNat / 65536 % 256)) := by
  simp [h128, bits]

theorem updated128_ofNat (g : Word → Word → Word → Word) (t : Table 9) (a : Nat) :
    updated128 g t (BitVec.ofNat 9 a) = t.read (BitVec.ofNat 9 a) + g (t.read (BitVec.ofNat 9 (a + 512 - 3)))
      (t.read (BitVec.ofNat 9 (a + 512 - 10))) (t.read (BitVec.ofNat 9 (a + 512 - 511))) := by
  rw [ofNat_nine_sub a (d := 3) (by decide), ofNat_nine_sub a (d := 10) (by decide),
    ofNat_nine_sub a (d := 511) (by decide)]
  rfl

theorem output128_ofNat (g : Word → Word → Word → Word) (t other : Table 9) (a : Nat) :
    output128 g t other (BitVec.ofNat 9 a) =
      h128 other (t.read (BitVec.ofNat 9 (a + 512 - 12))) ^^^ updated128 g t (BitVec.ofNat 9 a) := by
  rw [ofNat_nine_sub a (d := 12) (by decide)]
  rfl

/-- A step reads from the table it has written: the new word, and a word at another position for `h`. -/
theorem output128_of_write (g : Word → Word → Word → Word) (t other : Table 9) (j : BitVec 9) :
    h128 other ((t.write j (updated128 g t j)).read (j - 12)) ^^^ (t.write j (updated128 g t j)).read j =
      output128 g t other j := by
  have hne : j - 12 ≠ j := by simp
  rw [Table.read_write, Table.read_write, if_neg hne, if_pos rfl, output128]

/-- Everything a step on table P does. -/
theorem step128_P {c : HcCore 9} (h : c.i.toNat % 1024 < 512) :
    step128 c = (output128 g1 c.p c.q (c.i.setWidth 9),
      { c with p := c.p.write (c.i.setWidth 9) (updated128 g1 c.p (c.i.setWidth 9)), i := c.i + 1 }) := by
  rw [step128, if_pos ((bit9_eq_false_iff _).2 h), ← output128_of_write]
  rfl

/-- Everything a step on table Q does. -/
theorem step128_Q {c : HcCore 9} (h : 512 ≤ c.i.toNat % 1024) :
    step128 c = (output128 g2 c.q c.p (c.i.setWidth 9),
      { c with q := c.q.write (c.i.setWidth 9) (updated128 g2 c.q (c.i.setWidth 9)), i := c.i + 1 }) := by
  rw [step128, if_neg (by rw [bit9_eq_false_iff]; omega), ← output128_of_write]
  rfl

/-- Settles O41: `step128_P` and `step128_Q`, with the positions as numbers. -/
theorem hc128StepUpdatesOneWord : Obligations.Hc128StepUpdatesOneWord := by
  intro ctx j at' h r
  have hat (t a) : at' t a = t.read (BitVec.ofNat 9 a) := t.getElem_mod_eq_read rfl a _
  have hh (t x) : h t x = h128 t x := by rw [h128_eq, ← hat, ← hat]
  have hj : ctx.i.setWidth 9 = BitVec.ofNat 9 j := (ofNat_nine_mod _).symm
  have hlt : j < 2 ^ 9 := Nat.mod_lt _ (by decide)
  simp only [hat, hh, r]
  refine ⟨step128_i ctx, fun hP => ?_, fun hQ => ?_⟩
  · rw [step128_P hP, hj, output128_ofNat, updated128_ofNat]
    exact ⟨rfl, rfl, fun a ha => ctx.p.read_write_ofNat _ hlt ha⟩
  · rw [step128_Q hQ, hj, output128_ofNat, updated128_ofNat]
    exact ⟨rfl, rfl, fun a ha => ctx.q.read_write_ofNat _ hlt ha⟩

/-! The warm-up (R75), one step -/

theorem step128_output_P {c : HcCore 9} {k : Nat} (hk : k < 512) (hi : c.i = BitVec.ofNat 64 k) :
    (step128 c).1 = output128 g1 c.p c.q (BitVec.ofNat 9 k) := by
  have hj : c.i.setWidth 9 = BitVec.ofNat 9 k := by rw [hi, BitVec.setWidth_ofNat_of_le (by decide)]
  rw [step128_P (by rw [hi, BitVec.toNat_ofNat]; omega), hj]

theorem step128_output_Q {c : HcCore 9} {k : Nat} (hk : k < 512) (hi : c.i = BitVec.ofNat 64 (512 + k)) :
    (step128 c).1 = output128 g2 c.q c.p (BitVec.ofNat 9 k) := by
  have hj : c.i.setWidth 9 = BitVec.ofNat 9 k := by
    rw [hi, BitVec.setWidth_ofNat_of_le (by decide), ← ofNat_nine_mod, Nat.add_mod_left, ofNat_nine_mod]
  rw [step128_Q (by rw [hi, BitVec.toNat_ofNat]; omega), hj]

/-- Settles O42: the word written back is the step's output, in the published order of its two parts. -/
theorem hc128WarmupWritesTheOutputBack : Obligations.Hc128WarmupWritesTheOutputBack := by
  intro ctx k hk a
  refine ⟨fun hi => ?_, fun hi => ?_⟩
  · rw [warmStep128_P hk hi, step128_output_P hk hi, output128, BitVec.xor_comm]
    exact ⟨rfl, rfl, rfl⟩
  · rw [warmStep128_Q hk hi, step128_output_Q hk hi, output128, BitVec.xor_comm]
    exact ⟨rfl, rfl, rfl⟩

/-! The warm-up, from step to step: `warmed128 c k` is the `c k` of R75 -/

/-- The context before step `k` of the warm-up. -/
def warmed128 (c : HcCore 9) (k : Nat) : HcCore 9 := (List.range k).foldl warmStep128 { c with i := 0 }

theorem warmup128_eq (c : HcCore 9) : warmup128 c = warmed128 c 1024 := rfl

theorem warmed128_zero (c : HcCore 9) : warmed128 c 0 = { c with i := 0 } := rfl

theorem warmed128_i (c : HcCore 9) (k : Nat) : (warmed128 c k).i = BitVec.ofNat 64 k := by
  rw [warmed128, warmSteps128_i, List.length_range]
  exact BitVec.zero_add _

/-- Everything one of the first 512 steps does. -/
theorem warmed128_succ_P (c : HcCore 9) {k : Nat} (hk : k < 512) :
    warmed128 c (k + 1) =
      { p := (warmed128 c k).p.write (BitVec.ofNat 9 k) (step128 (warmed128 c k)).1, q := (warmed128 c k).q,
        i := BitVec.ofNat 64 (k + 1) } :=
  (warmSteps128_succ k _).trans (warmStep128_P hk (warmed128_i c k))

/-- Everything one of the last 512 steps does. -/
theorem warmed128_succ_Q (c : HcCore 9) {k : Nat} (hk : k < 512) :
    warmed128 c (512 + k + 1) =
      { p := (warmed128 c (512 + k)).p,
        q := (warmed128 c (512 + k)).q.write (BitVec.ofNat 9 k) (step128 (warmed128 c (512 + k))).1,
        i := BitVec.ofNat 64 (512 + k + 1) } :=
  (warmSteps128_succ (512 + k) _).trans (warmStep128_Q hk (warmed128_i c (512 + k)))

/-- Setup (R76), with a name for the warmed context, so that no check of an equation runs the warm-up. -/
theorem setup128_of_warmup {key iv : List Byte} {w : HcCore 9} (h : warmup128 (tables128 key iv) = w) :
    setup128 key iv = { w with i := 0 } := by
  subst h
  rfl

/-- Settles O43: the contexts before the steps of the loop are those of `warmed128`. -/
theorem hc128SetupEndsAtCounterZero : Obligations.Hc128SetupEndsAtCounterZero := by
  refine ⟨fun ctx => ⟨warmed128 ctx, warmed128_zero ctx, warmup128_eq ctx, fun k hk => ⟨?_, ?_⟩⟩, fun key iv => ?_⟩
  · rw [warmed128_succ_P ctx hk]
    exact ⟨rfl, rfl, fun a ha => Table.getElem_write_ofNat _ _ hk ha⟩
  · rw [warmed128_succ_Q ctx hk]
    exact ⟨rfl, rfl, fun a ha => Table.getElem_write_ofNat _ _ hk ha⟩
  · obtain ⟨w, hw⟩ : ∃ w, warmup128 (tables128 key iv) = w := ⟨_, rfl⟩
    have hi : w.i = 1024#64 := by rw [← hw, warmup128_eq, warmed128_i]
    rw [setup128_of_warmup hw, hw]
    exact ⟨hi, rfl, rfl, rfl⟩

/-! The warm-up, from the loaded tables to the warmed ones -/

/-- The tables `t 0`, …, `t 512` are those of a pass of the warm-up from `loaded` to `warmed`: each step writes its
output word back. -/
structure IsWarmupPass (g : Word → Word → Word → Word) (other loaded warmed : Table 9) (t : Nat → Table 9) : Prop where
  first : t 0 = loaded
  last : t 512 = warmed
  step : ∀ k, k < 512 → t (k + 1) = (t k).write (BitVec.ofNat 9 k) (output128 g (t k) other (BitVec.ofNat 9 k))

section Pass

variable {g : Word → Word → Word → Word} {other loaded warmed : Table 9} {t : Nat → Table 9}

/-- A pass writes every word once, in order. -/
theorem IsWarmupPass.read_cases (h : IsWarmupPass g other loaded warmed t) {a k : Nat} (ha : a < 512) (hk : k ≤ 512) :
    (t k).read (BitVec.ofNat 9 a) =
      if a < k then output128 g (t a) other (BitVec.ofNat 9 a) else loaded.read (BitVec.ofNat 9 a) := by
  induction k with
  | zero => rw [h.first, if_neg (Nat.not_lt_zero a)]
  | succ k ih =>
    rw [h.step k hk, Table.read_write_ofNat _ _ hk ha, ih (by omega)]
    obtain hlt | rfl | hgt := Nat.lt_trichotomy a k
    · rw [if_neg hlt.ne, if_pos hlt, if_pos (by omega)]
    · rw [if_pos rfl, if_pos (by omega)]
    · rw [if_neg hgt.ne', if_neg (by omega), if_neg (by omega)]

theorem IsWarmupPass.warmed_read (h : IsWarmupPass g other loaded warmed t) {a : Nat} (ha : a < 512) :
    warmed.read (BitVec.ofNat 9 a) = output128 g (t a) other (BitVec.ofNat 9 a) := by
  rw [← h.last, h.read_cases ha le_rfl, if_pos ha]

/-- Step `k` of a pass finds the words below `k` warmed and the others loaded. -/
theorem IsWarmupPass.read_eq_mix (h : IsWarmupPass g other loaded warmed t) {k : Nat} (hk : k ≤ 512) (a : Nat) :
    (t k).read (BitVec.ofNat 9 a) =
      if a % 512 < k then warmed.read (BitVec.ofNat 9 a) else loaded.read (BitVec.ofNat 9 a) := by
  have ha : a % 512 < 512 := Nat.mod_lt _ (by decide)
  rw [← ofNat_nine_mod, h.read_cases ha hk, h.warmed_read ha]

/-- The published form of a warmed word. -/
theorem IsWarmupPass.warmed_read_published (h : IsWarmupPass g other loaded warmed t) {k : Nat} (hk : k < 512) :
    warmed.read (BitVec.ofNat 9 k) =
      (loaded.read (BitVec.ofNat 9 k) + g ((t k).read (BitVec.ofNat 9 (k + 512 - 3)))
        ((t k).read (BitVec.ofNat 9 (k + 512 - 10))) ((t k).read (BitVec.ofNat 9 (k + 512 - 511))))
        ^^^ h128 other ((t k).read (BitVec.ofNat 9 (k + 512 - 12))) := by
  rw [h.warmed_read hk, output128_ofNat, updated128_ofNat, BitVec.xor_comm, h.read_cases hk hk.le,
    if_neg (Nat.lt_irrefl k)]

end Pass

/-- The first pass leaves Q. -/
theorem warmed128_q (c : HcCore 9) {k : Nat} (hk : k ≤ 512) : (warmed128 c k).q = c.q := by
  induction k with
  | zero => rfl
  | succ k ih => rw [warmed128_succ_P c hk, ih (by omega)]

/-- The second pass leaves P. -/
theorem warmed128_p (c : HcCore 9) {k : Nat} (hk : k ≤ 512) : (warmed128 c (512 + k)).p = (warmed128 c 512).p := by
  induction k with
  | zero => rfl
  | succ k ih => rw [← Nat.add_assoc, warmed128_succ_Q c hk, ih (by omega)]

/-- P is as warmed from step 512 to the end. -/
theorem warmup128_p (c : HcCore 9) : (warmup128 c).p = (warmed128 c 512).p := by
  rw [warmup128_eq, warmed128_p c (k := 512) le_rfl]

/-- The first 512 steps warm P, with `h1` on Q as loaded. -/
theorem warmed128_pass_P (c : HcCore 9) :
    IsWarmupPass g1 c.q c.p (warmup128 c).p fun k => (warmed128 c k).p where
  first := rfl
  last := (warmup128_p c).symm
  step k hk := by rw [warmed128_succ_P c hk, step128_output_P hk (warmed128_i c k), warmed128_q c hk.le]

/-- The last 512 steps warm Q, with `h2` on P as warmed. -/
theorem warmed128_pass_Q (c : HcCore 9) :
    IsWarmupPass g2 (warmup128 c).p c.q (warmup128 c).q fun k => (warmed128 c (512 + k)).q where
  first := warmed128_q c (k := 512) le_rfl
  last := by rw [warmup128_eq]
  step k hk := by
    rw [← Nat.add_assoc, warmed128_succ_Q c hk, step128_output_Q hk (warmed128_i c (512 + k)), warmed128_p c hk.le,
      warmup128_p]

/-- Settles O59: one pass over P, then one over Q; step `k` of a pass reads the `mix` of its table. -/
theorem hc128WarmupTakesThePublishedForm : Obligations.Hc128WarmupTakesThePublishedForm := by
  intro ctx d at' h mix k hk p q
  have hat (t a) : at' t a = t.read (BitVec.ofNat 9 a) := t.getElem_mod_eq_read rfl a _
  have hh (t x) : h t x = h128 t x := by rw [h128_eq, ← hat, ← hat]
  have hp (a) : p a = (warmed128 ctx k).p.read (BitVec.ofNat 9 a) := by
    rw [(warmed128_pass_P ctx).read_eq_mix hk.le, ← hat, ← hat]
  have hq (a) : q a = (warmed128 ctx (512 + k)).q.read (BitVec.ofNat 9 a) := by
    rw [(warmed128_pass_Q ctx).read_eq_mix hk.le, ← hat, ← hat]
  simp only [hat, hh, hp, hq]
  exact ⟨(warmed128_pass_P ctx).warmed_read_published hk, (warmed128_pass_Q ctx).warmed_read_published hk⟩

end Sys2Proof.Machine

/-! The HC-256 engine (42_hc256.md): the expansion, one step by the words it reads, and the discarded steps of setup. -/

namespace Sys2Proof.Machine

/-! The expansion (R87, R88, R89) -/

theorem load256_getD (key iv : List Byte) {i : Nat} (hi : i < 8) :
    (load256 key iv).getD i 0 = le32 key (4 * i) ∧ (load256 key iv).getD (8 + i) 0 = le32 iv (4 * i) :=
  getD_append_of_range_eight (fun i => le32 key (4 * i)) (fun i => le32 iv (4 * i)) hi

/-- Settles O48: the loaded words stay, every later one is the recurrence's, and the tables are two pieces of them. -/
theorem hc256ExpansionFillsTheTables : Obligations.Hc256ExpansionFillsTheTables := by
  intro key iv
  have hsize := load256_size key iv
  refine ⟨by rw [expansion256, expand_size, hsize], fun i hi => ?_, fun i hi hlt => ?_, fun i h => ?_⟩
  · obtain ⟨hkey, hiv⟩ := load256_getD key iv hi
    exact ⟨(expand_of_lt _ _ (by omega)).trans hkey, (expand_of_lt _ _ (by omega)).trans hiv⟩
  · exact expand_recurrence 2544 _ hsize.ge (by omega) (by omega)
  · exact ⟨tableFrom_getElem 10 _ 512 h, tableFrom_getElem 10 _ 1536 h⟩

/-! One step (R92), on the table `t` it uses, with the other table for the lookups of R83 to R86 -/

/-- The word a step puts at position `j`. -/
def updated256 (t other : Table 10) (j : BitVec 10) : Word :=
  t.read j + t.read (j - 10) + g256 other (t.read (j - 3)) (t.read (j - 1023))

/-- The output word of the step. -/
def output256 (t other : Table 10) (j : BitVec 10) : Word :=
  h256 other (t.read (j - 12)) ^^^ updated256 t other j

/-- A step reads from the table it has written: the new word, and a word at another position for `h`. -/
theorem output256_of_write (t other : Table 10) (j : BitVec 10) :
    h256 other ((t.write j (updated256 t other j)).read (j - 12)) ^^^ (t.write j (updated256 t other j)).read j =
      output256 t other j := by
  have hne : j - 12 ≠ j := by simp
  rw [Table.read_write, Table.read_write, if_neg hne, if_pos rfl, output256]

/-- Everything a step on table P does. -/
theorem step256_P {c : HcCore 10} (h : c.i.toNat % 2048 < 1024) :
    step256 c = (output256 c.p c.q (c.i.setWidth 10),
      { c with p := c.p.write (c.i.setWidth 10) (updated256 c.p c.q (c.i.setWidth 10)), i := c.i + 1 }) := by
  rw [step256, if_pos ((bit10_eq_false_iff _).2 h), ← output256_of_write]
  rfl

/-- Everything a step on table Q does. -/
theorem step256_Q {c : HcCore 10} (h : 1024 ≤ c.i.toNat % 2048) :
    step256 c = (output256 c.q c.p (c.i.setWidth 10),
      { c with q := c.q.write (c.i.setWidth 10) (updated256 c.q c.p (c.i.setWidth 10)), i := c.i + 1 }) := by
  rw [step256, if_neg (by rw [bit10_eq_false_iff]; omega), ← output256_of_write]
  rfl

/-! The same with numbers for the positions -/

theorem ofNat_ten_mod (a : Nat) : BitVec.ofNat 10 (a % 1024) = BitVec.ofNat 10 a := BitVec.eq_of_toNat_eq (by simp)

/-- The lookup of R83 and R84. -/
theorem g256_eq (t : Table 10) (x y : Word) :
    g256 t x y = (rotr x 10 ^^^ rotr y 23) + t.read (BitVec.ofNat 10 (x ^^^ y).toNat) := by
  rw [← ofNat_ten_mod]
  simp [g256, bits]

/-- The four bytes of R85 and R86; the top one needs no reduction. -/
theorem h256_eq (t : Table 10) (x : Word) :
    h256 t x = t.read (BitVec.ofNat 10 (x.toNat % 256)) + t.read (BitVec.ofNat 10 (256 + x.toNat / 256 % 256))
      + t.read (BitVec.ofNat 10 (512 + x.toNat / 65536 % 256))
      + t.read (BitVec.ofNat 10 (768 + x.toNat / 16777216)) := by
  have htop : x.toNat / 16777216 % 256 = x.toNat / 16777216 := Nat.mod_eq_of_lt (by omega)
  simp [h256, bits, htop]

theorem ofNat_position256 (i : BitVec 64) : BitVec.ofNat 10 (i.toNat % 1024) = i.setWidth 10 := ofNat_ten_mod _

theorem ofNat_position256_sub (i : BitVec 64) {d : Nat} (hd : d < 1024) :
    BitVec.ofNat 10 (i.toNat % 1024 + 1024 - d) = i.setWidth 10 - BitVec.ofNat 10 d :=
  BitVec.eq_of_toNat_eq (by rw [position256_sub i hd, BitVec.toNat_ofNat])

theorem updated256_position (t other : Table 10) (i : BitVec 64) :
    updated256 t other (i.setWidth 10) =
      t.read (BitVec.ofNat 10 (i.toNat % 1024)) + t.read (BitVec.ofNat 10 (i.toNat % 1024 + 1024 - 10))
        + g256 other (t.read (BitVec.ofNat 10 (i.toNat % 1024 + 1024 - 3)))
          (t.read (BitVec.ofNat 10 (i.toNat % 1024 + 1024 - 1023))) := by
  rw [ofNat_position256, ofNat_position256_sub i (d := 3) (by decide), ofNat_position256_sub i (d := 10) (by decide),
    ofNat_position256_sub i (d := 1023) (by decide)]
  rfl

theorem output256_position (t other : Table 10) (i : BitVec 64) :
    output256 t other (i.setWidth 10) =
      h256 other (t.read (BitVec.ofNat 10 (i.toNat % 1024 + 1024 - 12))) ^^^ updated256 t other (i.setWidth 10) := by
  rw [ofNat_position256_sub i (d := 12) (by decide)]
  rfl

/-- Settles O49: `step256_P` and `step256_Q`, with the positions as numbers. -/
theorem hc256StepUpdatesOneWord : Obligations.Hc256StepUpdatesOneWord := by
  intro ctx j at' g h r
  have hat (t a) : at' t a = t.read (BitVec.ofNat 10 a) := t.getElem_mod_eq_read rfl a _
  have hg (t x y) : g t x y = g256 t x y := by rw [g256_eq, ← hat]
  have hh (t x) : h t x = h256 t x := by rw [h256_eq, ← hat, ← hat, ← hat, ← hat]
  have hj : j < 2 ^ 10 := Nat.mod_lt _ (by decide)
  simp only [hat, hg, hh, r]
  refine ⟨step256_i ctx, fun hP => ?_, fun hQ => ?_⟩
  · rw [step256_P hP, output256_position, updated256_position, ← ofNat_position256]
    exact ⟨rfl, rfl, fun a ha => ctx.p.read_write_ofNat _ hj ha⟩
  · rw [step256_Q hQ, output256_position, updated256_position, ← ofNat_position256]
    exact ⟨rfl, rfl, fun a ha => ctx.q.read_write_ofNat _ hj ha⟩

/-! Setup (R90, R91) -/

/-- Setup, with a name for the context after the discarded steps, so that no check of an equation runs them. -/
theorem setup256_of_refills {key iv : List Byte} {w : HcCore 10}
    (h : afterRefills refill256 4096 { tables256 key iv with i := 0 } = w) : setup256 key iv = { w with i := 0 } := by
  rw [afterRefills_refill256] at h
  subst h
  rfl

/-- Settles O50: each discarded step is a refill, and only I is written after the last one. -/
theorem hc256SetupDiscards4096Steps : Obligations.Hc256SetupDiscards4096Steps := by
  intro key iv c
  obtain ⟨w, hw⟩ : ∃ w, c = w := ⟨_, rfl⟩
  rw [setup256_of_refills hw, hw]
  exact ⟨rfl, rfl, rfl⟩

end Sys2Proof.Machine

/-! The Rabbit engine (43_rabbit.md): the counters and their carries, one round, the two setups and the keystream. -/

namespace Sys2Proof.Machine

/-! The counter update (R99), word by word -/

/-- The counters and the running carry before word `k` of the update. -/
def countersAt (ctx : RabbitCore) : Nat → Vector Word 8 × Bool
  | 0 => (ctx.c, ctx.carry)
  | k + 1 => ctrWord (countersAt ctx k) (Fin.ofNat 8 k)

/-- The carry into word `k`: the `b_k` of R99. -/
def carryInto (ctx : RabbitCore) (k : Nat) : Bool := (countersAt ctx k).2

theorem ctrUpdate_c (ctx : RabbitCore) : (ctrUpdate ctx).c = (countersAt ctx 8).1 := rfl

theorem ctrUpdate_carry (ctx : RabbitCore) : (ctrUpdate ctx).carry = carryInto ctx 8 := rfl

theorem countersAt_succ (ctx : RabbitCore) {k : Nat} (hk : k < 8) :
    countersAt ctx (k + 1) =
      ((countersAt ctx k).1.set k (addCarry (countersAt ctx k).1[k] rabbitA[k] (carryInto ctx k)).1,
        (addCarry (countersAt ctx k).1[k] rabbitA[k] (carryInto ctx k)).2) := by
  simp [countersAt, ctrWord, carryInto, Nat.mod_eq_of_lt hk]

/-- The update writes every word once, in order, and reads it as it was. -/
theorem countersAt_getElem (ctx : RabbitCore) {i k : Nat} (hi : i < 8) (hk : k ≤ 8) :
    (countersAt ctx k).1[i] =
      if i < k then (addCarry ctx.c[i] rabbitA[i] (carryInto ctx i)).1 else ctx.c[i] := by
  induction k with
  | zero => rfl
  | succ k ih =>
    rw [countersAt_succ ctx hk, Vector.getElem_set]
    obtain hlt | rfl | hgt := Nat.lt_trichotomy i k
    · rw [if_neg hlt.ne', ih (by omega), if_pos hlt, if_pos (by omega)]
    · rw [if_pos rfl, ih (by omega), if_neg (Nat.lt_irrefl i), if_pos (by omega)]
    · rw [if_neg hgt.ne, ih (by omega), if_neg (by omega), if_neg (by omega)]

theorem ctrUpdate_getElem (ctx : RabbitCore) {i : Nat} (hi : i < 8) :
    (ctrUpdate ctx).c[i] = (addCarry ctx.c[i] rabbitA[i] (carryInto ctx i)).1 := by
  simp only [ctrUpdate_c, countersAt_getElem ctx hi le_rfl, if_pos hi]

theorem carryInto_succ (ctx : RabbitCore) {i : Nat} (hi : i < 8) :
    carryInto ctx (i + 1) = (addCarry ctx.c[i] rabbitA[i] (carryInto ctx i)).2 := by
  rw [carryInto, countersAt_succ ctx hi, countersAt_getElem ctx hi hi.le, if_neg (Nat.lt_irrefl i)]

/-- One word of the update, exactly: `addCarry_spec` with the carries of the update. -/
theorem ctrUpdate_word (ctx : RabbitCore) {i : Nat} (hi : i < 8) :
    (ctrUpdate ctx).c[i].toNat + 2 ^ 32 * (carryInto ctx (i + 1)).toNat =
      ctx.c[i].toNat + rabbitA[i].toNat + (carryInto ctx i).toNat := by
  rw [ctrUpdate_getElem ctx hi, carryInto_succ ctx hi]
  exact addCarry_spec ..

/-- Settles O51: the carries are those into the words of the update. -/
theorem rabbitCounterThreadsTheCarry : Obligations.RabbitCounterThreadsTheCarry := by
  intro ctx A
  have hA (i : Nat) (h : i < 8) : rabbitA[i].toNat = A[i] := by interval_cases i <;> rfl
  refine ⟨carryInto ctx, rfl, ctrUpdate_carry ctx, ctrUpdate_x ctx, fun i h => ?_⟩
  rw [← hA i h]
  exact ctrUpdate_word ctx h

/-! The counter update as one long addition -/

/-- The number whose digits to base 2^32 are the words of a list, the lowest first. -/
def wordsValue (l : List Word) : Nat := l.foldr (fun w acc => w.toNat + 2 ^ 32 * acc) 0

theorem wordsValue_cons (w : Word) (l : List Word) : wordsValue (w :: l) = w.toNat + 2 ^ 32 * wordsValue l := rfl

/-- Words added one by one, each with the carry out of the one before, are the long addition. -/
theorem wordsValue_of_carries {cs as rs : List Word} {b : Nat → Bool} (ha : as.length = cs.length)
    (hr : rs.length = cs.length)
    (hword : ∀ (i : Nat) (h : i < cs.length), rs[i].toNat + 2 ^ 32 * (b (i + 1)).toNat =
      cs[i].toNat + as[i].toNat + (b i).toNat) :
    wordsValue rs + 2 ^ (32 * cs.length) * (b cs.length).toNat = wordsValue cs + wordsValue as + (b 0).toNat := by
  induction cs generalizing as rs b with
  | nil =>
    obtain rfl := List.length_eq_zero_iff.1 ha
    obtain rfl := List.length_eq_zero_iff.1 hr
    simp [wordsValue]
  | cons c cs ih =>
    obtain ⟨a, as, rfl⟩ := List.exists_cons_of_length_eq_add_one ha
    obtain ⟨r, rs, rfl⟩ := List.exists_cons_of_length_eq_add_one hr
    have hlow : r.toNat + 2 ^ 32 * (b 1).toNat = c.toNat + a.toNat + (b 0).toNat := hword 0 (Nat.succ_pos _)
    have hhigh := ih (b := fun i => b (i + 1)) (Nat.succ.inj ha) (Nat.succ.inj hr)
      fun i h => hword (i + 1) (Nat.succ_lt_succ h)
    have hpow : 2 ^ (32 * (cs.length + 1)) = 2 ^ 32 * 2 ^ (32 * cs.length) := by rw [Nat.mul_succ, Nat.pow_add']
    rw [wordsValue_cons, wordsValue_cons, wordsValue_cons, List.length_cons, hpow, Nat.mul_assoc]
    linarith

/-- Settles O52: the eight words of `ctrUpdate_word`, put together. -/
theorem rabbitCounterIsOneLongAddition : Obligations.RabbitCounterIsOneLongAddition := by
  intro ctx value
  have h := wordsValue_of_carries (cs := ctx.c.toList) (as := rabbitA.toList) (rs := (ctrUpdate ctx).c.toList)
    (b := carryInto ctx) (by simp) (by simp) fun i hi => by
      simpa using ctrUpdate_word ctx (i := i) (by simpa using hi)
  rwa [Vector.length_toList, ← ctrUpdate_carry] at h

/-! One round (R100, R101) -/

/-- Settles O53: the square of a word fits in 64 bits. -/
theorem rabbitGSquaresExactly : Obligations.RabbitGSquaresExactly := by
  intro u v t
  have ht : t < 2 ^ 32 := Nat.mod_lt _ (by decide)
  have hsq : t * t < 2 ^ 64 := calc
    t * t < 2 ^ 32 * 2 ^ 32 := Nat.mul_lt_mul'' ht ht
    _ = 2 ^ 64 := by decide
  have hhigh : t * t / 2 ^ 32 < 2 ^ 32 := Nat.div_lt_of_lt_mul hsq
  have hword : ((u + v).setWidth 64 * (u + v).setWidth 64).toNat = t * t := by
    rw [BitVec.toNat_mul, BitVec.toNat_setWidth, BitVec.toNat_add, Nat.mod_eq_of_lt (ht.trans (by decide)),
      Nat.mod_eq_of_lt hsq]
  rw [gRabbit, BitVec.toNat_xor, BitVec.extractLsb'_toNat, BitVec.extractLsb'_toNat, hword, Nat.shiftRight_zero,
    Nat.shiftRight_eq_div_pow, Nat.mod_eq_of_lt hhigh]

theorem combineG_even (G : Vector Word 8) {i : Fin 8} (h : i.val % 2 = 0) :
    (combineG G)[i] = G[i] + rotl G[i - 1] 16 + rotl G[i - 2] 16 := by
  obtain rfl | rfl | rfl | rfl : i = 0 ∨ i = 2 ∨ i = 4 ∨ i = 6 := by omega
  all_goals rfl

theorem combineG_odd (G : Vector Word 8) {i : Fin 8} (h : i.val % 2 = 1) :
    (combineG G)[i] = G[i] + rotl G[i - 1] 8 + G[i - 2] := by
  obtain rfl | rfl | rfl | rfl : i = 1 ∨ i = 3 ∨ i = 5 ∨ i = 7 := by omega
  all_goals rfl

theorem nextState_x (ctx : RabbitCore) :
    (nextState ctx).x = combineG (Vector.zipWith gRabbit ctx.x (ctrUpdate ctx).c) := rfl

/-- Settles O54: the even and the odd equations, on the G of the old X and the new C. -/
theorem rabbitRoundFollowsTheEquations : Obligations.RabbitRoundFollowsTheEquations := by
  intro ctx n G
  have hG (i : Fin 8) : (Vector.zipWith gRabbit ctx.x (ctrUpdate ctx).c)[i] = G i := by simp [G]
  refine ⟨nextState_c ctx, nextState_carry ctx, fun i hi => ?_, fun i hi => ?_⟩
  · simp only [n, nextState_x, combineG_even _ hi, hG]
  · simp only [n, nextState_x, combineG_odd _ hi, hG]

/-! The two setups -/

/-- Settles O55: the loaded words are those of R98, and finalization is `finalizeKey_c`. -/
theorem rabbitKeySetupFinalizes : Obligations.RabbitKeySetupFinalizes := by
  intro key k start r
  refine ⟨rfl, fun i => ?_, finalizeKey_x r, finalizeKey_carry r, finalizeKey_c r⟩
  fin_cases i <;> exact ⟨rfl, rfl, rfl, rfl⟩

/-- The little-endian half-word at `o`. -/
def halfAt (s : List Byte) (o : Nat) : BitVec 16 :=
  (byteAt s o).setWidth 16 ||| ((byteAt s (o + 1)).setWidth 16 <<< 8)

theorem getLsbD_halfAt (s : List Byte) (o : Nat) {i : Nat} (hi : i < 16) :
    (halfAt s o).getLsbD i = (byteAt s (o + i / 8)).getLsbD (i % 8) := by
  obtain hlow | hhigh := Nat.lt_or_ge i 8
  · rw [Nat.div_eq_of_lt hlow, Nat.mod_eq_of_lt hlow]
    simp [halfAt, hlow, hi]
  · rw [show i / 8 = 1 by omega, show i % 8 = i - 8 by omega]
    simp [halfAt, hi, hhigh.not_gt, BitVec.getLsbD_of_ge _ i hhigh]

/-- `LE32` by its half-words. -/
theorem le32_eq_append (s : List Byte) (o : Nat) : le32 s o = halfAt s (o + 2) ++ halfAt s o := by
  refine BitVec.eq_of_getLsbD_eq fun i hi => ?_
  rw [getLsbD_le32 s o hi, BitVec.getLsbD_append]
  obtain hlow | hhigh := Nat.lt_or_ge i 16
  · rw [if_pos hlow, getLsbD_halfAt s o hlow]
  · rw [if_neg (by omega), getLsbD_halfAt s (o + 2) (by omega), show o + 2 + (i - 16) / 8 = o + i / 8 by omega,
      show (i - 16) % 8 = i % 8 by omega]

/-! Words as two half-words: the masks and shifts of R103 -/

theorem append_and_upperMask (a b : BitVec 16) : (a ++ b : Word) &&& 0xFFFF0000#32 = (a ++ 0#16 : Word) := calc
  (a ++ b : Word) &&& (0xFFFF#16 ++ 0#16 : Word) = ((a &&& 0xFFFF#16) ++ (b &&& 0#16) : Word) := BitVec.and_append
  _ = (a ++ 0#16 : Word) := congrArg₂ BitVec.append BitVec.and_allOnes BitVec.and_zero

theorem append_and_lowerMask (a b : BitVec 16) : (a ++ b : Word) &&& 0x0000FFFF#32 = (0#16 ++ b : Word) := calc
  (a ++ b : Word) &&& (0#16 ++ 0xFFFF#16 : Word) = ((a &&& 0#16) ++ (b &&& 0xFFFF#16) : Word) := BitVec.and_append
  _ = (0#16 ++ b : Word) := congrArg₂ BitVec.append BitVec.and_zero BitVec.and_allOnes

theorem upper_or_lower (a b : BitVec 16) : (a ++ 0#16 : Word) ||| (0#16 ++ b : Word) = (a ++ b : Word) := calc
  (a ++ 0#16 : Word) ||| (0#16 ++ b : Word) = ((a ||| 0#16) ++ (0#16 ||| b) : Word) := BitVec.or_append
  _ = (a ++ b : Word) := congrArg₂ BitVec.append BitVec.or_zero BitVec.zero_or

theorem append_ushiftRight_half (a b : BitVec 16) : (a ++ b : Word) >>> 16 = (0#16 ++ a : Word) := by
  refine BitVec.eq_of_toNat_eq ?_
  rw [BitVec.toNat_ushiftRight, append_toNat, append_toNat, BitVec.toNat_zero, Nat.shiftRight_eq_div_pow]
  omega

theorem append_shiftLeft_half (a b : BitVec 16) : (a ++ b : Word) <<< 16 = (b ++ 0#16 : Word) := by
  refine BitVec.eq_of_toNat_eq ?_
  rw [BitVec.toNat_shiftLeft, append_toNat, append_toNat, BitVec.toNat_zero, Nat.shiftLeft_eq]
  omega

/-- The upper half of one word beside the lower half of another. -/
theorem joinHalves_append (a b c d : BitVec 16) : joinHalves (a ++ b) (c ++ d) = (a ++ d : Word) := by
  rw [joinHalves, append_and_upperMask, append_and_lowerMask, upper_or_lower]

/-- The lower half of one word moved up beside that of another. -/
theorem shiftLeft_or_and_append (a b c d : BitVec 16) :
    ((a ++ b : Word) <<< 16) ||| ((c ++ d : Word) &&& 0x0000FFFF#32) = (b ++ d : Word) := by
  rw [append_shiftLeft_half, append_and_lowerMask, upper_or_lower]

/-- The four IV words of R103 by half-words. -/
theorem ivWords_eq (iv : List Byte) :
    ivWords iv = #v[(halfAt iv 2 ++ halfAt iv 0 : Word), halfAt iv 6 ++ halfAt iv 2, halfAt iv 6 ++ halfAt iv 4,
      halfAt iv 4 ++ halfAt iv 0] := by
  simp only [ivWords, le32_eq_append, append_ushiftRight_half, joinHalves_append, shiftLeft_or_and_append]

/-- Settles O56: the mixed state is `mixIv`'s, and `ivWords_eq` gives its words. -/
theorem rabbitIvSetupMixesHalfWords : Obligations.RabbitIvSetupMixesHalfWords := by
  intro ctx iv half pair w
  have hw : ivWords iv = w := ivWords_eq iv
  exact ⟨mixIv ctx w, mixIv_x ctx w, mixIv_carry ctx w, mixIv_c ctx w, by rw [ivSetup, hw, fourRounds]⟩

/-! The refill and the keystream (R105 to R107) -/

/-- Settles O57: byte `b` of word `m` of the extraction, after one round. -/
theorem rabbitRefillExtractsAfterOneRound : Obligations.RabbitRefillExtractsAfterOneRound := by
  intro ctx n
  refine ⟨rfl, fun m b => ?_⟩
  rw [← extractRabbit_getElem n m]
  exact serialise_getElem (extractRabbit n) m b

theorem ivWords_zero : ivWords (List.replicate 8 0#8) = Vector.replicate 4 0#32 := by decide

/-- Zero words leave the counters. -/
theorem mixIv_zero (ctx : RabbitCore) : mixIv ctx (Vector.replicate 4 0#32) = ctx := by
  have hc : (mixIv ctx (Vector.replicate 4 0#32)).c = ctx.c := Vector.ext fun i hi => by
    simpa using mixIv_c ctx (Vector.replicate 4 0#32) ⟨i, hi⟩
  cases ctx
  exact congrArg (RabbitCore.mk _ · _) hc

/-- IV setup with an all-zero IV is four rounds. -/
theorem ivSetup_zero (ctx : RabbitCore) : ivSetup ctx (List.replicate 8 0#8) = nextState^[4] ctx := by
  rw [ivSetup, ivWords_zero, mixIv_zero]

theorem keystream_refillRabbit_shift (core : RabbitCore) (k : Nat) :
    keystream refillRabbit core (16 + k) = keystream refillRabbit (nextState core) k :=
  keystream_shift refillRabbit (by decide) core k

/-- Settles O58: the four rounds of an all-zero IV are the rounds of the first four refills without one. -/
theorem rabbitZeroIvDropsFourBlocks : Obligations.RabbitZeroIvDropsFourBlocks := by
  intro key k
  calc KS .rabbit key (List.replicate 8 0#8) k
      = keystream refillRabbit (ivSetup (keySetup key) (List.replicate 8 0#8)) k := rfl
    _ = keystream refillRabbit (nextState (nextState (nextState (nextState (keySetup key))))) k := by
        rw [ivSetup_zero, fourRounds]
    _ = keystream refillRabbit (keySetup key) (16 + (16 + (16 + (16 + k)))) := by
        simp only [keystream_refillRabbit_shift]
    _ = KS .rabbit key [] (64 + k) := by
        simp only [← Nat.add_assoc]
        rfl

end Sys2Proof.Machine

/-! The statuses of 60_exceptions.md: their codes (R110), what an error status leaves unchanged (R111), their priority
(R112), and the block without a request (R123). -/

namespace Sys2Proof.Machine

/-- Settles O14, one status at a time. -/
theorem statusCodesAreZeroToThree : Obligations.StatusCodesAreZeroToThree :=
  ⟨rfl, rfl, rfl, rfl, fun st => by cases st <;> decide⟩

/-- Settles O15: a step begins with the oldest request, and there is none. -/
theorem idleBlockHoldsEverything : Obligations.IdleBlockHoldsEverything := by
  intro s hr
  rw [step, hr]

/-- Settles O11, from the two rules of the response: an error status has no data and keeps the contexts (R55),
and the transaction alone leaves the port (R54). -/
theorem errorStatusHasNoOtherEffect : Obligations.ErrorStatusHasNoOtherEffect := by
  intro s u t rest r hr hu hresp herr
  obtain ⟨ha, -⟩ := execute_cases ((step_of_command hr).symm.trans hu)
  obtain ⟨-, hdata, hslots⟩ := onlyAnXorReturnsData s u t rest r hr hu hresp
  obtain ⟨u', -, hu', -, hrest, -⟩ := admittedTransactionAnswersOnce s t rest hr ha
  obtain rfl : u = u' := Host.Outcome.next.inj (hu.symm.trans hu')
  refine ⟨hdata (.inr herr), ?_⟩
  rw [← hslots herr, ← hrest, ← hresp]

/-! The status of a command, by its effect on the context it names (R112) -/

section Priority

variable {κ : Type} {B : Nat} {e : Engine} {E : EngineOps κ B} {s : State} {w : Word} {st : Status} {slot : Slot}

theorem EngineOps.Models.effect_init_status (hE : E.Models e) (n k v : Nat) (p : List Byte) (c : Context κ B) :
    (E.effect (Instr.init e n k v) p c).2.status = if legalLengths e k v then .ok else .invalidLength := by
  rw [E.effect_init, hE.engine_eq]
  split <;> rfl

theorem EngineOps.Models.effect_xor_status (hE : E.Models e) (n l : Nat) (p : List Byte) (slot : Slot) :
    (E.effect (Instr.xor e n l) p (E.get slot)).2.status = if slot.validOf e then .ok else .noContext := by
  rw [E.effect_xor, hE.valid_eq]
  split <;> rfl

theorem EngineOps.Models.effect_release_status (hE : E.Models e) (n : Nat) (p : List Byte) (slot : Slot) :
    (E.effect (Instr.release e n) p (E.get slot)).2.status = if slot.validOf e then .ok else .noContext := by
  rw [E.effect_release, hE.valid_eq]
  split <;> rfl

/-- A reserved word has the first status of the order: every other one needs a word that decodes. -/
theorem HasStatus.eq_illegalCommand {why : Illegal} (h : HasStatus s w st) (hd : decode s.nctx w = .error why) :
    st = .illegalCommand := by
  cases h with
  | reserved => rfl
  | _ => simp_all

/-- A status the priority order gives a command is the status of its effect. -/
theorem HasStatus.eq_effect_status {i : Instr} (h : HasStatus s w st) (hd : decode s.nctx w = .ok i)
    (hE : E.Models i.engine) (hs : s.slots[i.ctx]? = some slot) (p : List Byte) :
    st = (E.effect i p (E.get slot)).2.status := by
  have hi {j : Instr} (hj : decode s.nctx w = .ok j) : i = j := Except.ok.inj (hd.symm.trans hj)
  cases h with
  | reserved why hj => exact nomatch hd.symm.trans hj
  | lengths e n k v hj hkv =>
    obtain rfl := hi hj
    rw [Instr.init_engine] at hE
    rw [hE.effect_init_status, if_neg (mt (legalLengths_iff ..).1 hkv)]
  | initOk e n k v hj hkv =>
    obtain rfl := hi hj
    rw [Instr.init_engine] at hE
    rw [hE.effect_init_status, if_pos ((legalLengths_iff ..).2 hkv)]
  | xorInvalid e n l slot' hj hs' hv | xorOk e n l slot' hj hs' hv =>
    obtain rfl := hi hj
    rw [Instr.xor_engine] at hE
    rw [Instr.xor_ctx, hs'] at hs
    cases hs
    rw [hE.effect_xor_status, hv]
    rfl
  | releaseInvalid e n slot' hj hs' hv | releaseOk e n slot' hj hs' hv =>
    obtain rfl := hi hj
    rw [Instr.release_engine] at hE
    rw [Instr.release_ctx, hs'] at hs
    cases hs
    rw [hE.effect_release_status, hv]
    rfl

/-- The status of a command's effect is one the priority order gives it. -/
theorem hasStatus_effect {i : Instr} (hd : decode s.nctx w = .ok i) (hE : E.Models i.engine)
    (hs : s.slots[i.ctx]? = some slot) (p : List Byte) : HasStatus s w (E.effect i p (E.get slot)).2.status := by
  obtain ⟨e, n, k, v, rfl⟩ | ⟨e, n, l, rfl⟩ | ⟨e, n, rfl⟩ := instr_cases i
  · rw [Instr.init_engine] at hE
    rw [hE.effect_init_status]
    split
    case isTrue hkv => exact .initOk e n k v hd ((legalLengths_iff ..).1 hkv)
    case isFalse hkv => exact .lengths e n k v hd (mt (legalLengths_iff ..).2 hkv)
  · rw [Instr.xor_engine] at hE
    rw [Instr.xor_ctx] at hs
    rw [hE.effect_xor_status]
    split
    case isTrue hv => exact .xorOk e n l slot hd hs hv
    case isFalse hv => exact .xorInvalid e n l slot hd hs (Bool.eq_false_iff.2 hv)
  · rw [Instr.release_engine] at hE
    rw [Instr.release_ctx] at hs
    rw [hE.effect_release_status]
    split
    case isTrue hv => exact .releaseOk e n slot hd hs hv
    case isFalse hv => exact .releaseInvalid e n slot hd hs (Bool.eq_false_iff.2 hv)

/-- The priority order gives every word one status, on any state. -/
theorem existsUnique_hasStatus (s : State) (w : Word) : ∃! st, HasStatus s w st := by
  cases hd : decode s.nctx w with
  | error why => exact ⟨_, .reserved why hd, fun st h => h.eq_illegalCommand hd⟩
  | ok i =>
    obtain ⟨κ, B, E, hE⟩ := exists_models i.engine
    have hs : s.slots[i.ctx]? = some (s.slots[i.ctx]'(decode_ctx_lt hd)) := List.getElem?_eq_getElem _
    exact ⟨_, hasStatus_effect hd hE hs [], fun st h => h.eq_effect_status hd hE hs []⟩

/-- The step answers with the status of the priority order. -/
theorem HasStatus.step_answers {t : Transaction} {rest : List Request} (h : HasStatus s t.cmd st)
    (hr : s.requests = .command t :: rest) (ha : t.Admitted) :
    ∃ u data, step s = .next u ∧ u.responses = s.responses ++ [⟨st, data⟩] := by
  cases hd : decode s.nctx t.cmd with
  | error why =>
    cases h.eq_illegalCommand hd
    exact ⟨_, _, step_of_decode_error hr ha hd, State.respond_responses ..⟩
  | ok i =>
    obtain ⟨κ, B, E, hE⟩ := exists_models i.engine
    obtain ⟨slot, hs, hstep⟩ := step_command hr ha hd hE
    cases h.eq_effect_status hd hE hs t.payload
    exact ⟨_, _, hstep, E.answered_responses ..⟩

end Priority

/-- Settles O12: the status of the priority order is the one of the command's effect, which the step answers. -/
theorem statusFollowsThePriority : Obligations.StatusFollowsThePriority :=
  ⟨fun _ _ _ _ hr ha h => h.step_answers hr ha, existsUnique_hasStatus⟩

end Sys2Proof.Machine

/-! The commands behind a reset (70_reset_and_hazards.md R125). -/

namespace Sys2Proof.Machine

/-- A run of the block begins with its first step. -/
theorem core_run_succ {s u : State} (h : step s = .next u) (k : Nat) :
    Host.Core.run core (k + 1) s = Host.Core.run core k u := by
  have hcore : core.step s = .next u := h
  simp only [Host.Core.run, hcore]

/-- Without a cipher in any context, R112 gives every XOR and every RELEASE the status NO_CONTEXT. -/
theorem State.AllInvalid.hasStatus_noContext {s : State} {w : Word} {e : Engine} {n : Nat} (h : s.AllInvalid)
    (hd : (∃ len, decode s.nctx w = .ok (Instr.xor e n len)) ∨ decode s.nctx w = .ok (Instr.release e n)) :
    HasStatus s w .noContext := by
  have invalid_slot (hn : n < s.nctx) : s.slots[n]? = some s.slots[n] ∧ s.slots[n].validOf e = false :=
    ⟨List.getElem?_eq_getElem hn, h _ (List.getElem_mem hn) e⟩
  obtain ⟨len, hd⟩ | hd := hd
  · obtain ⟨hs, hv⟩ := invalid_slot (by simpa using decode_ctx_lt hd)
    exact .xorInvalid e n len _ hd hs hv
  · obtain ⟨hs, hv⟩ := invalid_slot (by simpa using decode_ctx_lt hd)
    exact .releaseInvalid e n _ hd hs hv

/-- The step of a command with the status NO_CONTEXT: the response has no data, and the command leaves the port. -/
theorem HasStatus.step_noContext {s : State} {t : Transaction} {rest : List Request} (h : HasStatus s t.cmd .noContext)
    (hr : s.requests = .command t :: rest) (ha : t.Admitted) :
    step s = .next { s with requests := rest, responses := s.responses ++ [⟨.noContext, []⟩] } := by
  obtain ⟨u, data, hu, hresp⟩ := h.step_answers hr ha
  obtain ⟨hdata, hnext⟩ := errorStatusHasNoOtherEffect s u t rest _ hr hu hresp nofun
  obtain rfl : data = [] := hdata
  rw [hu, hnext]

/-- Settles O18: the reset leaves no cipher in any context, keeps NCTX, and leaves the command on the port. -/
theorem afterResetXorAndReleaseReportNoContext : Obligations.AfterResetXorAndReleaseReportNoContext := by
  intro s inProgress t rest e n hr hreset ha hd
  have hfirst : step s = .next (hostReset s) := (step_of_reset hr).trans (executeReset_of s hreset)
  have hport : (hostReset s).requests = .command t :: rest := by simp [hr]
  have hstatus : HasStatus (hostReset s) t.cmd .noContext :=
    (hostReset_allInvalid s).hasStatus_noContext (by rwa [hostReset_nctx])
  exact ⟨_, (core_run_succ hfirst 1).trans (core_run_succ (hstatus.step_noContext hport ha) 0), rfl, rfl⟩

end Sys2Proof.Machine
